-- ==== Sys2Proof/Word.lean ====
section
/-! DEFINITION. The fixed-width values of the block and their names in spec/ (00_scope.md R8, R11).
Every value is unsigned (R11); no signed quantity exists. -/

namespace Sys2Proof

/-- A 32-bit operation word, 30_encoding.md R90 and R96. -/
abbrev OpWord := BitVec 32

/-- A 26-bit raw frame value, 30_encoding.md R72. -/
abbrev RawFrame := BitVec 26

/-- A 16-bit Card Identifier, 30_encoding.md R75. -/
abbrev CardId := BitVec 16

/-- The 28-bit operand of `TICK`: a count of microseconds, 30_encoding.md R91, R92. -/
abbrev TickCount := BitVec 28

/-- A value of `AGE_W` = 32 bits: an age counter or a threshold, 00_scope.md R8, 10_state.md R23. -/
abbrev Age := BitVec 32

/-- One byte of an output message, 30_encoding.md R76. -/
abbrev Byte := BitVec 8

end Sys2Proof
end

