-- ==== Sys2Proof/Config.lean ====
section
/-! DEFINITION. The implementation parameters of 00_scope.md R8, the configuration record `CFG` of 10_state.md R21,
and the one value the spec leaves free. Which configurations are legal (R10) is `Sys2Proof.Machine.cfgLegal` in
Machine/Ops.lean. -/

namespace Sys2Proof

/-- `FRAME_BITS` = 26, fixed (00_scope.md R8). -/
abbrev frameBits : Nat := 26

/-- `AGE_MAX` = 2^32 - 1 (00_scope.md R8). -/
abbrev ageMax : Nat := 4294967295

/-- `OVERFLOW_POLICY` (10_state.md R21): `dropOldest` is the code 0, `reject` the code 1. -/
inductive OverflowPolicy where
  | dropOldest
  | reject
deriving DecidableEq, Repr

/-- `MODEL_LEVEL` (30_encoding.md R95): `block` refuses the unit-only operations, `unit` admits them. -/
inductive ModelLevel where
  | block
  | unit
deriving DecidableEq, Repr

/-- The configuration record `CFG`, one field per row of 10_state.md R21. -/
structure Cfg where
  /-- `DEADTIME_EN`: true is 1 (the hardened variant), false is 0 (always-accept). -/
  deadtimeEn : Bool
  /-- `DEAD_TIME_US`. -/
  deadTimeUs : Age
  /-- `PARTIAL_TIMEOUT_US`. -/
  partialTimeoutUs : Age
  /-- `GAP_US`. -/
  gapUs : Age
  /-- `DUP_WINDOW_US`. -/
  dupWindowUs : Age
  /-- `CADENCE_US`. -/
  cadenceUs : Age
  /-- `N` (`QUEUE_CAP`), 17 bits wide. -/
  queueCap : BitVec 17
  /-- `OVERFLOW_POLICY`. -/
  overflowPolicy : OverflowPolicy
deriving DecidableEq, Repr

/-- The defaults of the reference design, the column "default" of 10_state.md R21. -/
def defaultCfg : Cfg :=
  { deadtimeEn := true
    deadTimeUs := 200
    partialTimeoutUs := 200000
    gapUs := 20000
    dupWindowUs := 300000
    cadenceUs := 10000000
    queueCap := 256
    overflowPolicy := .dropOldest }

/-- `N` as a number. -/
def Cfg.cap (c : Cfg) : Nat := c.queueCap.toNat

/-- What a queue slot that no push has written since the last RESET reads as, by the number of that RESET and the slot:
"any value" (93_implementation_defined.md U5; 10_state.md R32, 46_timebase_reset.md R203). A free value: it has no
body, and nothing may rest on it (log entry 3). -/
opaque Config.unwrittenSlot (resets slot : Nat) : CardId

end Sys2Proof
end

