-- ==== Sys2Proof/Syntax.lean ====
section
/-! DEFINITION. The operation set of 30_encoding.md R90 (every row of the opcode table), who issues each
operation (60_exceptions.md R225), at which level it exists (R95), and the pseudo-operations of R98. -/

namespace Sys2Proof

/-- The block's atomic operations, one constructor per row of the opcode table (30_encoding.md R90). Operands
are plain unsigned fields of the word (R92). -/
inductive Instr where
  /-- `EDGE_D0`, 40_edge_filter.md R100. -/
  | edgeD0
  /-- `EDGE_D1`, 40_edge_filter.md R103. -/
  | edgeD1
  /-- `POLL_ABANDON`, 41_frame_assembler.md R121. -/
  | pollAbandon
  /-- `POLL_COMPLETE`, 41_frame_assembler.md R124. -/
  | pollComplete
  /-- `DECODE raw`, 42_decoder.md R141. -/
  | decode (raw : RawFrame)
  /-- `DUP_FILTER id`, 43_dup_filter.md R153. -/
  | dupFilter (id : CardId)
  /-- `Q_PUSH id`, 44_queue.md R167. -/
  | qPush (id : CardId)
  /-- `Q_POP`, 44_queue.md R168. -/
  | qPop
  /-- `SCHED_POLL`, 45_scheduler.md R180. -/
  | schedPoll
  /-- `TICK n`, 46_timebase_reset.md R201. -/
  | tick (n : TickCount)
  /-- `RESET`, 46_timebase_reset.md R203. -/
  | reset
deriving DecidableEq, Repr

/-- The agents of 60_exceptions.md R225. -/
inductive Agent where
  | capture
  | poll
  | scheduler
  | environment
deriving DecidableEq, Repr

/-- The agent that issues an operation, the column "agent" of 30_encoding.md R90. -/
def Instr.agent : Instr → Agent
  | .edgeD0 => .capture
  | .edgeD1 => .capture
  | .pollAbandon => .poll
  | .pollComplete => .poll
  | .decode _ => .poll
  | .dupFilter _ => .poll
  | .qPush _ => .poll
  | .qPop => .scheduler
  | .schedPoll => .scheduler
  | .tick _ => .environment
  | .reset => .environment

/-- The clock domain an agent stands in (00_scope.md R7, 60_exceptions.md R225). The environment has none. -/
inductive ClockDomain where
  | write
  | read
deriving DecidableEq, Repr

/-- The domain of each agent, 60_exceptions.md R225. -/
def Agent.domain : Agent → Option ClockDomain
  | .capture => some .write
  | .poll => some .write
  | .scheduler => some .read
  | .environment => none

/-- The operations that exist at level UNIT only, the column "level" of 30_encoding.md R90. -/
def Instr.unitOnly : Instr → Bool
  | .edgeD0 => false
  | .edgeD1 => false
  | .pollAbandon => false
  | .pollComplete => false
  | .decode _ => true
  | .dupFilter _ => true
  | .qPush _ => true
  | .qPop => true
  | .schedPoll => false
  | .tick _ => false
  | .reset => false

/-- The pseudo-operations of 30_encoding.md R98. -/
inductive PseudoOp where
  /-- `WAIT n`. -/
  | wait (n : TickCount)
  /-- `FRAME raw, s`. -/
  | frame (raw : RawFrame) (spacing : TickCount)
  /-- `EDGE b`. -/
  | edge (b : Bool)
deriving DecidableEq, Repr

end Sys2Proof
end

