-- ==== Sys2Proof/WellFormed.lean ====
section
/-! DEFINITION. When a term of the syntax is an operation the spec admits. The operand types carry every width
of 30_encoding.md R91; what is left is `TICK`'s n >= 1 (R91, R94) and `FRAME`'s s >= 1 (R98). -/

namespace Sys2Proof

/-- An operation some word encodes: `TICK n` needs n >= 1 (30_encoding.md R91, R94). -/
def Instr.wellFormed : Instr → Bool
  | .tick n => n != 0
  | .edgeD0 => true
  | .edgeD1 => true
  | .pollAbandon => true
  | .pollComplete => true
  | .decode _ => true
  | .dupFilter _ => true
  | .qPush _ => true
  | .qPop => true
  | .schedPoll => true
  | .reset => true

/-- A pseudo-operation with an expansion: `FRAME raw, s` needs s >= 1; `WAIT 0` is allowed (30_encoding.md R98). -/
def PseudoOp.wellFormed : PseudoOp → Bool
  | .wait _ => true
  | .frame _ s => s != 0
  | .edge _ => true

end Sys2Proof
end

