-- ==== Sys2Proof/Decode.lean ====
section
/-! DEFINITION. Decoding and encoding of operation words (30_encoding.md R90 to R96, R99), the expansions of the
pseudo-operations (R98) and the reader of trace lines (R97). -/

namespace Sys2Proof

/-- Why a word's verdict is `INVALID` (30_encoding.md R94). The spec has the one verdict; the names say which of
its three causes applies. -/
inductive Invalid where
  /-- An opcode in 0xB to 0xF. -/
  | reservedOpcode
  /-- A nonzero value in a "must be 0" field. -/
  | nonzeroField
  /-- `TICK` with n = 0. -/
  | tickZero
deriving DecidableEq, Repr

/-- op[31:28], 30_encoding.md R91. -/
def opcodeOf (w : OpWord) : BitVec 4 := w.extractLsb' 28 4

/-- Format Z: op[27:0] must be 0 (30_encoding.md R91). -/
def decodeZ (w : OpWord) (i : Instr) : Except Invalid Instr :=
  if w.extractLsb' 0 28 = 0 then .ok i else .error .nonzeroField

/-- Format F26: op[27:26] must be 0, the operand is op[25:0] (30_encoding.md R91). -/
def decodeF26 (w : OpWord) (f : RawFrame → Instr) : Except Invalid Instr :=
  if w.extractLsb' 26 2 = 0 then .ok (f (w.extractLsb' 0 26)) else .error .nonzeroField

/-- Format I16: op[27:16] must be 0, the operand is op[15:0] (30_encoding.md R91). -/
def decodeI16 (w : OpWord) (f : CardId → Instr) : Except Invalid Instr :=
  if w.extractLsb' 16 12 = 0 then .ok (f (w.extractLsb' 0 16)) else .error .nonzeroField

/-- Format T28: the operand is op[27:0] and must not be 0 (30_encoding.md R91, R94). -/
def decodeT28 (w : OpWord) (f : TickCount → Instr) : Except Invalid Instr :=
  if w.extractLsb' 0 28 = 0 then .error .tickZero else .ok (f (w.extractLsb' 0 28))

/-- `decode_op` of 30_encoding.md R93: total on every 32-bit word. -/
def decodeOp (w : OpWord) : Except Invalid Instr :=
  match (opcodeOf w).toNat with
  | 0x0 => decodeZ w .edgeD0
  | 0x1 => decodeZ w .edgeD1
  | 0x2 => decodeZ w .pollAbandon
  | 0x3 => decodeZ w .pollComplete
  | 0x4 => decodeF26 w .decode
  | 0x5 => decodeI16 w .dupFilter
  | 0x6 => decodeI16 w .qPush
  | 0x7 => decodeZ w .qPop
  | 0x8 => decodeZ w .schedPoll
  | 0x9 => decodeT28 w .tick
  | 0xA => decodeZ w .reset
  | _ => .error .reservedOpcode

/-- The opcode of each operation, the first column of 30_encoding.md R90. -/
def Instr.opcode : Instr → BitVec 4
  | .edgeD0 => 0x0
  | .edgeD1 => 0x1
  | .pollAbandon => 0x2
  | .pollComplete => 0x3
  | .decode _ => 0x4
  | .dupFilter _ => 0x5
  | .qPush _ => 0x6
  | .qPop => 0x7
  | .schedPoll => 0x8
  | .tick _ => 0x9
  | .reset => 0xA

/-- op[27:0] of each operation by its format, 30_encoding.md R91: the operand zero-extended (R92). -/
def Instr.operandField : Instr → BitVec 28
  | .decode raw => raw.setWidth 28
  | .dupFilter id => id.setWidth 28
  | .qPush id => id.setWidth 28
  | .tick n => n
  | .edgeD0 => 0
  | .edgeD1 => 0
  | .pollAbandon => 0
  | .pollComplete => 0
  | .qPop => 0
  | .schedPoll => 0
  | .reset => 0

/-- The operation word of an operation: the opcode in op[31:28] above its operand field (30_encoding.md R90, R91). -/
def encode (i : Instr) : OpWord := i.opcode ++ i.operandField

/-- The host's entry to the decoder: the word whose `nbits` low bits are `w`'s, every bit above them 0. Every
operation word is one 32-bit word (30_encoding.md R96). -/
def decodeTableWord (nbits w : Nat) : Option Instr :=
  match decodeOp (BitVec.ofNat 32 (w % 2 ^ nbits)) with
  | .ok i => some i
  | .error _ => none

/-- The line an edge falls on: `EDGE_D1` for the bit value 1, `EDGE_D0` for 0 (30_encoding.md R98). -/
def edgeOp (b : Bool) : Instr := if b then .edgeD1 else .edgeD0

/-- The operations `FRAME` sends from its k-th edge on: an edge for raw[25-k], then, when k < 25, `TICK s`
(30_encoding.md R98). The list is walked by the number of edges still to send. -/
def frameFrom (raw : RawFrame) (s : TickCount) : Nat → List Instr
  | 0 => []
  | 1 => [edgeOp (raw.getLsbD 0)]
  | m + 2 => edgeOp (raw.getLsbD (m + 1)) :: .tick s :: frameFrom raw s (m + 1)

/-- The expansions of the pseudo-operations, 30_encoding.md R98. -/
def PseudoOp.expand : PseudoOp → List Instr
  | .wait n => if n = 0 then [] else [.tick n]
  | .frame raw s => frameFrom raw s frameBits
  | .edge b => [edgeOp b]

/-! ### Trace lines, 30_encoding.md R97

A line is a mnemonic, then its operand, separated by spaces; it may end with a comment from `;` on. Operands are
decimal, `0x` hexadecimal or `0b` binary. Lines are lists of characters. -/

/-- The line without its comment (30_encoding.md R97). -/
def stripComment (l : List Char) : List Char := l.takeWhile (fun c => c != ';')

/-- The word read so far, if there is one. -/
def flushToken (cur : List Char) : List (List Char) := if cur.isEmpty then [] else [cur]

/-- The line's words, split at spaces; a comma is a word of its own (it separates `FRAME`'s operands, R98). -/
def tokensFrom (cur : List Char) : List Char → List (List Char)
  | [] => flushToken cur
  | ' ' :: cs => flushToken cur ++ tokensFrom [] cs
  | ',' :: cs => flushToken cur ++ [','] :: tokensFrom [] cs
  | c :: cs => tokensFrom (cur ++ [c]) cs

/-- The value of one digit: 0 to 9, then a to f in either case (DESIGN CHOICE, log entry 13). -/
def digitValue (c : Char) : Option Nat :=
  let k := c.toNat
  if 48 ≤ k ∧ k ≤ 57 then some (k - 48)
  else if 97 ≤ k ∧ k ≤ 102 then some (k - 87)
  else if 65 ≤ k ∧ k ≤ 70 then some (k - 55)
  else none

/-- The number that digits of a base denote, most significant first, onto what was read before them. -/
def numeralFrom (base : Nat) (acc : Nat) : List Char → Option Nat
  | [] => some acc
  | c :: cs =>
    match digitValue c with
    | some d => if d < base then numeralFrom base (acc * base + d) cs else none
    | none => none

/-- A numeral has at least one digit. -/
def numeral (base : Nat) (ds : List Char) : Option Nat :=
  if ds.isEmpty then none else numeralFrom base 0 ds

/-- An operand: `0x` hexadecimal, `0b` binary, else decimal (30_encoding.md R97). -/
def operandNumber : List Char → Option Nat
  | '0' :: 'x' :: ds => numeral 16 ds
  | '0' :: 'b' :: ds => numeral 2 ds
  | ds => numeral 10 ds

/-- An operand that fits a field of `width` bits. -/
def operandBits (width : Nat) (t : List Char) : Option (BitVec width) :=
  match operandNumber t with
  | some v => if v < 2 ^ width then some (BitVec.ofNat width v) else none
  | none => none

/-- The mnemonics of the operations without an operand (30_encoding.md R90). -/
def plainMnemonics : List (List Char × Instr) :=
  [ (['E','D','G','E','_','D','0'], .edgeD0), (['E','D','G','E','_','D','1'], .edgeD1),
    (['P','O','L','L','_','A','B','A','N','D','O','N'], .pollAbandon),
    (['P','O','L','L','_','C','O','M','P','L','E','T','E'], .pollComplete),
    (['Q','_','P','O','P'], .qPop), (['S','C','H','E','D','_','P','O','L','L'], .schedPoll),
    (['R','E','S','E','T'], .reset) ]

/-- One operation or pseudo-operation with one operand (30_encoding.md R97, R98). -/
def unaryLine (m t : List Char) : Option (List Instr) :=
  if m = ['D','E','C','O','D','E'] then (operandBits 26 t).map fun v => [.decode v]
  else if m = ['D','U','P','_','F','I','L','T','E','R'] then (operandBits 16 t).map fun v => [.dupFilter v]
  else if m = ['Q','_','P','U','S','H'] then (operandBits 16 t).map fun v => [.qPush v]
  else if m = ['T','I','C','K'] then (operandBits 28 t).map fun v => [.tick v]
  else if m = ['W','A','I','T'] then (operandBits 28 t).map fun v => PseudoOp.expand (.wait v)
  else if m = ['E','D','G','E'] then (operandBits 1 t).map fun v => PseudoOp.expand (.edge (v == 1))
  else none

/-- `FRAME raw, s` (30_encoding.md R98). -/
def frameLine (m t u : List Char) : Option (List Instr) :=
  if m = ['F','R','A','M','E'] then
    match operandBits 26 t, operandBits 28 u with
    | some raw, some s => if s = 0 then none else some (PseudoOp.expand (.frame raw s))
    | _, _ => none
  else none

/-- The operations one trace line stands for, or none where it is not a line of 30_encoding.md R97 and R98. An
operation that no word encodes (`TICK 0`, R94) is no line. An empty line stands for no operation (DESIGN CHOICE,
log entry 13). -/
def parseLine (l : List Char) : Option (List Instr) :=
  let ops :=
    match tokensFrom [] (stripComment l) with
    | [] => some []
    | [m] => (plainMnemonics.find? fun (p : List Char × Instr) => p.1 == m).map fun (p : List Char × Instr) => [p.2]
    | [m, t] => unaryLine m t
    | [m, t, [','], u] => frameLine m t u
    | _ => none
  match ops with
  | some is => if is.all Instr.wellFormed then some is else none
  | none => none

end Sys2Proof
end

