-- ==== Sys2Proof/Machine/State.lean ====
section
/-! DEFINITION. The block's state, plain data: the elements of 10_state.md R23, the configuration (R21) and
`MODEL_LEVEL` (30_encoding.md R95) it runs under, the traces and marks the spec's model keeps (10_state.md R35,
30_encoding.md R95), the environment's time (46_timebase_reset.md R200), and four fields of the model's own. -/

namespace Sys2Proof.Machine

/-- The Tag Queue's storage, 20_memory.md R50: (slot index, 16-bit entry) pairs, indices strictly rising. A slot
that is not listed has not been written by a push since reset; it reads as a free value (10_state.md R32, log
entry 3). -/
abbrev Memory := List (Nat × CardId)

/-- The events of 30_encoding.md R77, one name per raised code; the codes 0, 6 and 7 have no name. -/
inductive EventCode where
  /-- `EV_CAPTURE_SUCCESS`, code 1. -/
  | captureSuccess
  /-- `EV_CAPTURE_ERROR`, code 2. -/
  | captureError
  /-- `EV_QUEUE_OVERFLOW`, code 3. -/
  | queueOverflow
  /-- `EV_TRANSMIT_SUCCESS`, code 4. -/
  | transmitSuccess
  /-- `EV_EVICT`, code 5. -/
  | evict
deriving DecidableEq, Repr

/-- An event record `(code, info)`, where info is a 16-bit identifier or none (30_encoding.md R77). -/
structure Event where
  code : EventCode
  info : Option CardId
deriving DecidableEq, Repr

/-- One emission on the output-message port: `tx_id` and the bytes of `tx_msg` (45_scheduler.md R183). -/
structure OutMsg where
  id : CardId
  bytes : List Byte
deriving DecidableEq, Repr

/-- One entry of the unit-level result trace `RES` (30_encoding.md R95; 42_decoder.md R141, 43_dup_filter.md
R153, 44_queue.md R167 and R168). -/
inductive UnitResult where
  /-- The 16-bit value `DECODE` or `Q_POP` gives. -/
  | value (v : CardId)
  /-- `DUP_FILTER` forwarded the identifier. -/
  | forward
  /-- `DUP_FILTER` suppressed the identifier. -/
  | suppress
  /-- `Q_PUSH` succeeded. -/
  | success
  /-- `Q_PUSH` failed. -/
  | fail
  /-- `Q_POP` found the queue empty. -/
  | empty
deriving DecidableEq, Repr

/-- The state of the machine. -/
structure State where
  /-- `CFG`, 10_state.md R21: as the `cfg` inputs held it when reset was last released (R22, 70_reset_and_hazards.md
  R240). -/
  cfg : Cfg
  /-- `MODEL_LEVEL`, 30_encoding.md R95: the model's parameter, written by no operation. -/
  level : ModelLevel
  /-- `fbit[0..25]`, 10_state.md R24: `fbit[k]` is the k-th bit received, counting from 0. -/
  fbit : Vector Bool frameBits
  /-- `fcnt`, 10_state.md R25: a 5-bit count, legal 0 to 26. -/
  fcnt : BitVec 5
  /-- `age_bit`, 10_state.md R27. -/
  ageBit : Age
  /-- `age_edge`, 10_state.md R28. -/
  ageEdge : Age
  /-- `dup_valid`, 10_state.md R29. -/
  dupValid : Bool
  /-- `dup_id`, 10_state.md R29. -/
  dupId : CardId
  /-- `age_dup`, 10_state.md R29. -/
  ageDup : Age
  /-- `q[0..N-1]`, 10_state.md R32 and 20_memory.md R50. -/
  q : Memory
  /-- `q_head`, 10_state.md R32: the slot the next push writes. Legal 0 to N-1. -/
  qHead : Nat
  /-- `q_tail`, 10_state.md R32: the slot the next pop reads. Legal 0 to N-1. -/
  qTail : Nat
  /-- `q_count`, 10_state.md R32: the occupancy. Legal 0 to N. -/
  qCount : Nat
  /-- `age_tx`, 10_state.md R30. -/
  ageTx : Age
  /-- `now`, the environment's time in microseconds, 46_timebase_reset.md R200. -/
  now : Nat
  /-- `EV`, the event trace, oldest record first (10_state.md R35). -/
  ev : List Event
  /-- `OUT`, the output trace, oldest message first (10_state.md R35). -/
  out : List OutMsg
  /-- `RES`, the unit-level result trace, oldest result first (30_encoding.md R95). -/
  res : List UnitResult
  /-- `REFUSED`, 30_encoding.md R95. -/
  refused : Bool
  /-- The model's own field: a RESET has set this state (46_timebase_reset.md R204, log entry 4). -/
  live : Bool
  /-- The model's own field: the operation words the environment has chosen and the block has not yet taken, the
  next one first (30_encoding.md R90, R96, log entry 1). -/
  stim : List OpWord
  /-- The model's own field: what the environment puts on the `cfg` inputs for the resets to come, one configuration a
  reset, the next one first; with none left the inputs hold what they held (70_reset_and_hazards.md R240, log entry
  2). -/
  cfgNext : List Cfg
  /-- The model's own field: how many RESETs there have been. It only numbers the free values of the slots that RESET
  leaves unspecified (46_timebase_reset.md R203, log entry 3). -/
  resets : Nat
deriving DecidableEq, Repr

/-- Why the machine stops with an internal error. The block itself never does (60_exceptions.md R210): each
reason belongs to states no run of the rules reaches. All are safe: the model stops, it proves nothing false. -/
inductive Fault where
  /-- Raised by an operation that reads `fcnt` and finds 27 to 31 (10_state.md R25, U3). Safe. -/
  | frameCountOutOfRange
  /-- Raised by `MemRead` and `MemWrite` for a slot index of N or more (20_memory.md R53, U4). Safe. -/
  | slotOutOfRange
  /-- Raised by the step, with no word to take or any but `RESET`, while no RESET has set the state: "the model has no
  step" (46_timebase_reset.md R204, 70_reset_and_hazards.md R241, U9). Safe. -/
  | beforeFirstReset
deriving DecidableEq, Repr

/-- Why the model gives a word no run. -/
inductive Refusal where
  /-- Raised by `exec`'s arm of an instruction without a meaning yet. Safe. -/
  | notModelled (mnemonic : String)
  /-- Raised by the step for a configuration that 00_scope.md R10 excludes: "the model has no run for it"
  (U11). Safe. -/
  | illegalConfiguration
deriving DecidableEq, Repr

/-- The machine right after reset: every element of 10_state.md R23 at its reset value, `CFG` at the defaults of
R21 and `MODEL_LEVEL` at BLOCK (log entry 2), `now` 0, the traces empty and `REFUSED` false (log entry 10), and
no operation chosen yet (log entry 1), no other configuration to come (log entry 2) and the counter of RESETs at 0
(log entry 3). -/
def State.reset : State :=
  { cfg := defaultCfg
    level := .block
    fbit := Vector.replicate frameBits false
    fcnt := 0
    ageBit := 0
    ageEdge := 4294967295
    dupValid := false
    dupId := 0
    ageDup := 4294967295
    q := []
    qHead := 0
    qTail := 0
    qCount := 0
    ageTx := 0
    now := 0
    ev := []
    out := []
    res := []
    refused := false
    live := true
    stim := []
    cfgNext := []
    resets := 0 }

end Sys2Proof.Machine
end

