-- ==== Sys2Proof/Machine/Flags.lean ====
section
/-! DEFINITION. The block's flags, all computed and none stored: the Frame Assembler's state (10_state.md R26) and
the queue's status flags (R33). -/

namespace Sys2Proof.Machine

/-- The states of the Frame Assembler, 10_state.md R26. -/
inductive FrameState where
  | empty
  | filling
  | full
deriving DecidableEq, Repr

/-- The Frame Assembler's state as a function of `fcnt` (10_state.md R26); none for the values 27 to 31, which are
no state (R25, U3). -/
def frameState (s : State) : Option FrameState :=
  if s.fcnt.toNat = 0 then some .empty
  else if s.fcnt.toNat < 26 then some .filling
  else if s.fcnt.toNat = 26 then some .full
  else none

/-- `q_empty`, 10_state.md R33. -/
def qEmpty (s : State) : Bool := s.qCount == 0

/-- `q_full`, 10_state.md R33. -/
def qFull (s : State) : Bool := s.qCount == s.cfg.cap

end Sys2Proof.Machine
end

