-- ==== Sys2Proof/Machine/Operands.lean ====
section
/-! DEFINITION. What an operation's operand or input stands for: the bit value of a line (30_encoding.md R70), the
raw value of a frame (R72), the identifier in a raw value (42_decoder.md R140), the microseconds of a tick
operand (R92), and the message of an identifier (R76). -/

namespace Sys2Proof.Machine

/-- The two input lines, 30_encoding.md R70. -/
inductive Line where
  | d0
  | d1
deriving DecidableEq, Repr

/-- The bit value a falling edge on a line encodes: 0 on D0, 1 on D1 (30_encoding.md R70). -/
def lineBit : Line → Bool
  | .d0 => false
  | .d1 => true

/-- The microseconds of `TICK`'s operand, `zext` of its bits (30_encoding.md R92). -/
def tickMicros (n : TickCount) : Nat := n.toNat

/-- `raw = sum over k in 0..25 of fbit[k] * 2^(25-k)`, 30_encoding.md R72. -/
def frameRaw (fbit : Vector Bool frameBits) : RawFrame :=
  BitVec.ofNat 26 (((List.range frameBits).map fun k => (fbit[k]?.getD false).toNat * 2 ^ (25 - k)).sum)

/-- `decode(raw) = (raw >> 1) & 0xFFFF`, 42_decoder.md R140. -/
def decodeId (raw : RawFrame) : CardId := ((raw >>> 1) &&& 0xFFFF).setWidth 16

/-- The decimal digits of a number, most significant first, no leading zero, 0 as the one digit 0
(30_encoding.md R76). The first argument bounds the number of digits after the first. -/
def decimalDigits : Nat → Nat → List Nat
  | 0, v => [v % 10]
  | fuel + 1, v => if v < 10 then [v] else decimalDigits fuel (v / 10) ++ [v % 10]

/-- `msg(id) = dec(id) ++ [0x0D, 0x0A]` in ASCII (30_encoding.md R76). A 16-bit value has at most five digits. -/
def message (id : CardId) : List Byte :=
  (decimalDigits 4 id.toNat).map (fun d => BitVec.ofNat 8 (0x30 + d)) ++ [0x0D, 0x0A]

/-- The 3-bit code of an event, 30_encoding.md R77. -/
def eventCode : EventCode → BitVec 3
  | .captureSuccess => 1
  | .captureError => 2
  | .queueOverflow => 3
  | .transmitSuccess => 4
  | .evict => 5

/-- The 1-bit code of `OVERFLOW_POLICY`, 10_state.md R21. -/
def policyCode : OverflowPolicy → BitVec 1
  | .dropOldest => 0
  | .reject => 1

end Sys2Proof.Machine
end

