-- ==== Sys2Proof/Machine/Ops.lean ====
section
/-! DEFINITION. The named operations that the meanings share: time, the queue storage, events and messages, the
Edge Filter and the append step, the duplicate check, push and pop, refusing a word, and taking the next word.
There is no exception to take and none to return from: 60_exceptions.md R219 and R220 ("No trap is ever
entered"); what stands in their place is `raise` (R211). -/

namespace Sys2Proof.Machine

/-- What an operation of the block answers: the state it leaves, or the internal error it found. -/
def outcomeOf : Except Fault State → Host.Outcome State Fault Refusal
  | .ok s => .next s
  | .error f => .fault f

/-! ### Configuration -/

/-- A threshold is at most `AGE_MAX - 1`, 00_scope.md R10 (a). -/
def thresholdLegal (t : Age) : Bool := decide (t.toNat ≤ ageMax - 1)

/-- The constraints of 00_scope.md R10: (a) for the five thresholds, (b) 1 <= N <= 65536. -/
def cfgLegal (c : Cfg) : Bool :=
  thresholdLegal c.deadTimeUs && thresholdLegal c.partialTimeoutUs && thresholdLegal c.gapUs
    && thresholdLegal c.dupWindowUs && thresholdLegal c.cadenceUs
    && decide (1 ≤ c.cap) && decide (c.cap ≤ 65536)

/-! ### Time -/

/-- n applications of `sat_inc` at once: `min(a + n, AGE_MAX)` (00_scope.md R11, 46_timebase_reset.md R201). -/
def satAdd (a : Age) (n : Nat) : Age := BitVec.ofNat 32 (min (a.toNat + n) ageMax)

/-- n microseconds pass: `now` and the four age counters, nothing else (46_timebase_reset.md R201). -/
def passTime (n : Nat) (s : State) : State :=
  { s with
    now := s.now + n
    ageEdge := satAdd s.ageEdge n
    ageBit := satAdd s.ageBit n
    ageDup := satAdd s.ageDup n
    ageTx := satAdd s.ageTx n }

/-! ### The queue storage, 20_memory.md R50 -/

/-- The entry of a slot that a push has written since reset, or none. -/
def Memory.read : Memory → Nat → Option CardId
  | [], _ => none
  | (a, v) :: m, i => if a = i then some v else Memory.read m i

/-- One slot written, the indices kept strictly rising. -/
def Memory.write : Memory → Nat → CardId → Memory
  | [], i, v => [(i, v)]
  | (a, w) :: m, i, v =>
    if a = i then (i, v) :: m
    else if i < a then (i, v) :: (a, w) :: m
    else (a, w) :: Memory.write m i v

/-- The canonical form: slot indices strictly rising. The list says which slots have been written; no entry can be
told apart from what an unlisted slot reads as, since that value is free (log entry 16). -/
def Memory.wf (m : Memory) : Bool := decide (m.Pairwise fun x y => x.1 < y.1)

/-- What slot i holds: what the last push to it since reset wrote, else the free value of an unwritten slot
(20_memory.md R50, 93_implementation_defined.md U5, log entry 3). -/
def slotValue (s : State) (i : Nat) : CardId :=
  match Memory.read s.q i with
  | some v => v
  | none => Config.unwrittenSlot s.resets i

/-- `MemRead(i, 1)`, 20_memory.md R50, R53. -/
def memRead (s : State) (i : Nat) : Except Fault CardId :=
  if s.cfg.cap ≤ i then .error .slotOutOfRange else .ok (slotValue s i)

/-- `MemWrite(i, 1, v)`, 20_memory.md R50, R53. -/
def memWrite (s : State) (i : Nat) (v : CardId) : Except Fault State :=
  if s.cfg.cap ≤ i then .error .slotOutOfRange
  else .ok { s with q := Memory.write s.q i v }

/-- `adv(c) = (c + 1) mod N`, 44_queue.md R164. -/
def adv (c : Cfg) (i : Nat) : Nat := (i + 1) % c.cap

/-! ### Events, messages, results, refusals -/

/-- `raise EV_X(info)`: the record joins `EV`, and the operation goes on (60_exceptions.md R211). -/
def raise (code : EventCode) (info : Option CardId) (s : State) : State :=
  { s with ev := s.ev ++ [⟨code, info⟩] }

/-- `emit_tx(r)`: the pair `(r, msg(r))` joins `OUT` (45_scheduler.md R183). -/
def emitTx (r : CardId) (s : State) : State := { s with out := s.out ++ [⟨r, message r⟩] }

/-- `RES <- RES ++ [r]` (30_encoding.md R95). -/
def recordResult (r : UnitResult) (s : State) : State := { s with res := s.res ++ [r] }

/-- A refused word: it sets `REFUSED` and changes nothing else (30_encoding.md R94, R95; U12, U13). -/
def refuseWord (s : State) : State := { s with refused := true }

/-- A unit-only operation: admitted at level UNIT, refused at level BLOCK (30_encoding.md R95). -/
def atUnitLevel (s : State) (admitted : Host.Outcome State Fault Refusal) : Host.Outcome State Fault Refusal :=
  match s.level with
  | .unit => admitted
  | .block => .next (refuseWord s)

/-! ### Edge Filter and Frame Assembler -/

/-- The Edge Filter's decision, 40_edge_filter.md R101: strictly more than the dead time, on the one clock both
lines share. -/
def edgeAccepted (s : State) : Bool := !s.cfg.deadtimeEn || decide (s.cfg.deadTimeUs.toNat < s.ageEdge.toNat)

/-- The buffer and its count emptied: `fcnt <- 0`, `fbit <- all 0` (10_state.md R24, 41_frame_assembler.md R121,
R124). -/
def clearFrame (s : State) : State := { s with fcnt := 0, fbit := Vector.replicate frameBits false }

/-- A bit appended: `fbit[fcnt] <- b`, `fcnt <- fcnt + 1`, `age_bit <- 0` (40_edge_filter.md R102). -/
def appendBit (b : Bool) (s : State) : State :=
  { s with
    fbit := s.fbit.setIfInBounds s.fcnt.toNat b
    fcnt := s.fcnt + 1
    ageBit := 0 }

/-- `edge(b)`, 40_edge_filter.md R101 and R102. -/
def edge (b : Bool) (s : State) : Except Fault State :=
  if edgeAccepted s then
    match frameState s with
    | some .full => .ok { s with ageEdge := 0 }
    | some _ => .ok (appendBit b { s with ageEdge := 0 })
    | none => .error .frameCountOutOfRange
  else .ok s

/-! ### Tag Queue -/

/-- What `push` returns, 44_queue.md R160. -/
inductive PushResult where
  | success
  | fail
deriving DecidableEq, Repr

/-- The identifier stored at the head, the head advanced, the count incremented, `EV_CAPTURE_SUCCESS` raised
(44_queue.md R161, R165). -/
def insertAtHead (id : CardId) (s : State) : Except Fault State :=
  match memWrite s s.qHead id with
  | .ok t => .ok (raise .captureSuccess (some id) { t with qHead := adv t.cfg t.qHead, qCount := t.qCount + 1 })
  | .error f => .error f

/-- The oldest entry evicted: read at the tail, the tail advanced, the count decremented, `EV_EVICT` raised
(44_queue.md R162). -/
def evictOldest (s : State) : Except Fault State :=
  match memRead s s.qTail with
  | .ok old => .ok (raise .evict (some old) { s with qTail := adv s.cfg s.qTail, qCount := s.qCount - 1 })
  | .error f => .error f

/-- `push(id)`, 44_queue.md R160. -/
def push (id : CardId) (s : State) : Except Fault (State × PushResult) :=
  if s.qCount < s.cfg.cap then
    match insertAtHead id s with
    | .ok t => .ok (t, .success)
    | .error f => .error f
  else
    match s.cfg.overflowPolicy with
    | .dropOldest =>
      match evictOldest s with
      | .ok t =>
        match insertAtHead id t with
        | .ok u => .ok (u, .success)
        | .error f => .error f
      | .error f => .error f
    | .reject => .ok (raise .queueOverflow (some id) s, .fail)

/-- `pop()`, 44_queue.md R166; none is `EMPTY`. -/
def pop (s : State) : Except Fault (State × Option CardId) :=
  if qEmpty s then .ok (s, none)
  else
    match memRead s s.qTail with
    | .ok v => .ok ({ s with qTail := adv s.cfg s.qTail, qCount := s.qCount - 1 }, some v)
    | .error f => .error f

/-! ### Duplicate Suppressor -/

/-- The duplicate check's test, 43_dup_filter.md R150: strictly less than the window. -/
def suppressed (id : CardId) (s : State) : Bool :=
  s.dupValid && s.dupId == id && decide (s.ageDup.toNat < s.cfg.dupWindowUs.toNat)

/-- The duplicate state after a forward, 43_dup_filter.md R150 and R151. -/
def noteForward (id : CardId) (s : State) : State := { s with dupValid := true, dupId := id, ageDup := 0 }

/-- What becomes of an identifier, 43_dup_filter.md R153. -/
inductive DupVerdict where
  | forward
  | suppress
deriving DecidableEq, Repr

/-- The duplicate check and, on a forward, the push, whatever the push returns (43_dup_filter.md R150 to R152;
41_frame_assembler.md R124). -/
def offer (id : CardId) (s : State) : Except Fault (State × DupVerdict) :=
  if suppressed id s then .ok (s, .suppress)
  else
    match push id (noteForward id s) with
    | .ok (t, _) => .ok (t, .forward)
    | .error f => .error f

/-! ### Reset -/

/-- The configuration that the `cfg` inputs hold when reset is released (70_reset_and_hazards.md R240). -/
def cfgAtRelease (s : State) : Cfg :=
  match s.cfgNext with
  | c :: _ => c
  | [] => s.cfg

/-- "`CFG` is whatever the `cfg` inputs held at the release" (70_reset_and_hazards.md R240; 10_state.md R22). -/
def sampleCfg (s : State) : State := { s with cfg := cfgAtRelease s, cfgNext := s.cfgNext.tail }

/-- Every element of the block's state at its reset value (46_timebase_reset.md R203, 10_state.md R23), the storage
unspecified. `CFG`, `MODEL_LEVEL`, `now`, `EV`, `OUT`, `RES`, `REFUSED` and what is still to come are not written. -/
def resetBlock (s : State) : State :=
  { s with
    fbit := Vector.replicate frameBits false
    fcnt := 0
    ageBit := 0
    ageEdge := 4294967295
    dupValid := false
    dupId := 0
    ageDup := 4294967295
    q := []
    qHead := 0
    qTail := 0
    qCount := 0
    ageTx := 0
    live := true
    resets := s.resets + 1 }

/-! ### Taking the next word -/

/-- The next operation word and the state without it; none while the environment has chosen no operation
(30_encoding.md R90, R96; log entry 1). -/
def fetchWord (s : State) : Option (OpWord × State) :=
  match s.stim with
  | [] => none
  | w :: rest => some (w, { s with stim := rest })

/-- Why a state has no step but RESET's: no RESET has set it, and then "the model has no step" from it
(46_timebase_reset.md R204, 70_reset_and_hazards.md R241, U9), whether or not a word is chosen; or its configuration
is not legal (00_scope.md R10). None where it has one. -/
def stopInForce (s : State) : Option (Host.Outcome State Fault Refusal) :=
  if s.live then
    if cfgLegal s.cfg then none else some (.refused .illegalConfiguration)
  else some (.fault .beforeFirstReset)

/-- Why a word is not taken. `RESET` starts a run from any state, and needs the configuration it samples to be legal
(00_scope.md R10, 70_reset_and_hazards.md R240); any other word needs a state that has a step. -/
def stopBefore (s : State) (d : Except Invalid Instr) : Option (Host.Outcome State Fault Refusal) :=
  match d with
  | .ok .reset => if cfgLegal (cfgAtRelease s) then none else some (.refused .illegalConfiguration)
  | _ => stopInForce s

/-- A word placed where the next step takes it. -/
def placeWord (nbits w : Nat) (s : State) : State :=
  { s with stim := BitVec.ofNat 32 (w % 2 ^ nbits) :: s.stim }

end Sys2Proof.Machine
end

