-- ==== Sys2Proof/Machine/CardDecoder.lean ====
section
/-! DEFINITION. The Decoder's stand-alone operation, 42_decoder.md. -/

namespace Sys2Proof.Machine

/-- `DECODE raw`: the identifier joins `RES`, and nothing else changes (42_decoder.md R141). UNIT level only. -/
def execDecode (raw : RawFrame) (s : State) : Host.Outcome State Fault Refusal :=
  atUnitLevel s (.next (recordResult (.value (decodeId raw)) s))

end Sys2Proof.Machine
end

