-- ==== Sys2Proof/Machine/DupFilter.lean ====
section
/-! DEFINITION. The Duplicate Suppressor's stand-alone operation, 43_dup_filter.md. -/

namespace Sys2Proof.Machine

/-- `DUP_FILTER id`: the check, the push on a forward, and FORWARD or SUPPRESS in `RES` (43_dup_filter.md R153).
UNIT level only. -/
def execDupFilter (id : CardId) (s : State) : Host.Outcome State Fault Refusal :=
  atUnitLevel s <|
    match offer id s with
    | .ok (t, .forward) => .next (recordResult .forward t)
    | .ok (t, .suppress) => .next (recordResult .suppress t)
    | .error f => .fault f

end Sys2Proof.Machine
end

