-- ==== Sys2Proof/Machine/EdgeFilter.lean ====
section
/-! DEFINITION. The capture unit's operations, 40_edge_filter.md. -/

namespace Sys2Proof.Machine

/-- `EDGE_D0`: a falling edge on line D0, `edge(0)` (40_edge_filter.md R100). -/
def execEdgeD0 (s : State) : Host.Outcome State Fault Refusal := outcomeOf (edge (lineBit .d0) s)

/-- `EDGE_D1`: a falling edge on line D1, `edge(1)` (40_edge_filter.md R103). -/
def execEdgeD1 (s : State) : Host.Outcome State Fault Refusal := outcomeOf (edge (lineBit .d1) s)

end Sys2Proof.Machine
end

