-- ==== Sys2Proof/Machine/FrameAssembler.lean ====
section
/-! DEFINITION. The poll unit's two checks of the Frame Assembler, 41_frame_assembler.md. -/

namespace Sys2Proof.Machine

/-- `POLL_ABANDON`: a stale partial frame is dropped with `EV_CAPTURE_ERROR` (41_frame_assembler.md R121). -/
def execPollAbandon (s : State) : Host.Outcome State Fault Refusal :=
  match frameState s with
  | some .filling =>
    if s.cfg.partialTimeoutUs.toNat < s.ageBit.toNat then .next (raise .captureError none (clearFrame s))
    else .next s
  | some _ => .next s
  | none => .fault .frameCountOutOfRange

/-- `POLL_COMPLETE`: a full frame that has settled is copied out, the buffer cleared, and the copy decoded,
checked and pushed, all in the one step (41_frame_assembler.md R124, R125). -/
def execPollComplete (s : State) : Host.Outcome State Fault Refusal :=
  match frameState s with
  | some .full =>
    if s.cfg.gapUs.toNat < s.ageBit.toNat then
      match offer (decodeId (frameRaw s.fbit)) (clearFrame s) with
      | .ok (t, _) => .next t
      | .error f => .fault f
    else .next s
  | some _ => .next s
  | none => .fault .frameCountOutOfRange

end Sys2Proof.Machine
end

