-- ==== Sys2Proof/Machine/Scheduler.lean ====
section
/-! DEFINITION. The Transmission Scheduler's poll, 45_scheduler.md. -/

namespace Sys2Proof.Machine

/-- `SCHED_POLL`: at the cadence one attempt, which restarts the cadence, pops at most one identifier, emits its
message and then raises `EV_TRANSMIT_SUCCESS` (45_scheduler.md R180 to R183). -/
def execSchedPoll (s : State) : Host.Outcome State Fault Refusal :=
  if s.cfg.cadenceUs.toNat ≤ s.ageTx.toNat then
    match pop { s with ageTx := 0 } with
    | .ok (t, some r) => .next (raise .transmitSuccess (some r) (emitTx r t))
    | .ok (t, none) => .next t
    | .error f => .fault f
  else .next s

end Sys2Proof.Machine
end

