-- ==== Sys2Proof/Machine/TagQueue.lean ====
section
/-! DEFINITION. The Tag Queue's stand-alone operations, 44_queue.md. -/

namespace Sys2Proof.Machine

/-- `Q_PUSH id`: `r = push(id); RES <- RES ++ [r]` (44_queue.md R167). UNIT level only. -/
def execQPush (id : CardId) (s : State) : Host.Outcome State Fault Refusal :=
  atUnitLevel s <|
    match push id s with
    | .ok (t, .success) => .next (recordResult .success t)
    | .ok (t, .fail) => .next (recordResult .fail t)
    | .error f => .fault f

/-- `Q_POP`: `r = pop(); RES <- RES ++ [r]` (44_queue.md R168). UNIT level only. -/
def execQPop (s : State) : Host.Outcome State Fault Refusal :=
  atUnitLevel s <|
    match pop s with
    | .ok (t, some v) => .next (recordResult (.value v) t)
    | .ok (t, none) => .next (recordResult .empty t)
    | .error f => .fault f

end Sys2Proof.Machine
end

