-- ==== Sys2Proof/Machine/TimebaseReset.lean ====
section
/-! DEFINITION. The environment's operations, 46_timebase_reset.md. -/

namespace Sys2Proof.Machine

/-- `TICK n`: n microseconds pass in one operation (46_timebase_reset.md R201). -/
def execTick (n : TickCount) (s : State) : Host.Outcome State Fault Refusal := .next (passTime (tickMicros n) s)

/-- `RESET`: both domains at their reset values at once (46_timebase_reset.md R203), under the configuration that the
`cfg` inputs hold at the release (70_reset_and_hazards.md R240). -/
def execReset (s : State) : Host.Outcome State Fault Refusal := .next (resetBlock (sampleCfg s))

end Sys2Proof.Machine
end

