-- ==== Sys2Proof/Machine/Dispatch.lean ====
section
/-! DEFINITION. One arm per operation of 30_encoding.md R90: a direct call of its meaning. -/

namespace Sys2Proof.Machine

/-- The meaning of every operation. -/
def exec (i : Instr) (s : State) : Host.Outcome State Fault Refusal :=
  match i with
  | .edgeD0 => Sys2Proof.Machine.execEdgeD0 s
  | .edgeD1 => Sys2Proof.Machine.execEdgeD1 s
  | .pollAbandon => Sys2Proof.Machine.execPollAbandon s
  | .pollComplete => Sys2Proof.Machine.execPollComplete s
  | .decode raw => Sys2Proof.Machine.execDecode raw s
  | .dupFilter id => Sys2Proof.Machine.execDupFilter id s
  | .qPush id => Sys2Proof.Machine.execQPush id s
  | .qPop => Sys2Proof.Machine.execQPop s
  | .schedPoll => Sys2Proof.Machine.execSchedPoll s
  | .tick n => Sys2Proof.Machine.execTick n s
  | .reset => Sys2Proof.Machine.execReset s

end Sys2Proof.Machine
end

