-- ==== Sys2Proof/Machine/Step.lean ====
section
/-! DEFINITION. One step: the next operation word the environment has chosen is taken, decoded and run. -/

namespace Sys2Proof.Machine

/-- One step of the machine. With no word to take, a block that a RESET has set waits for edges and polls
(70_reset_and_hazards.md R240), and one that none has set has no step (R241; 46_timebase_reset.md R204). A word that
decodes to INVALID is refused (30_encoding.md R94); every other word runs its operation. -/
def step (s : State) : Host.Outcome State Fault Refusal :=
  match fetchWord s with
  | none =>
    match stopInForce s with
    | some stop => stop
    | none => .next s
  | some (w, t) =>
    match stopBefore t (decodeOp w) with
    | some stop => stop
    | none =>
      match decodeOp w with
      | .ok i => exec i t
      | .error _ => .next (refuseWord t)

/-- The state with an operation word placed where the next step takes it; nothing else is changed. -/
def State.withFetchWord (s : State) (nbits w : Nat) : State := placeWord nbits w s

end Sys2Proof.Machine
end

