-- ==== Sys2Proof/Safety.lean ====
section
/-! DEFINITION. What the statements are said in: runs over a list of operations (00_scope.md R12, 20_memory.md
R58), the invariant of the machine, the queue's content (10_state.md R32), what the traces record of the
identifiers, and the premise `POLL_OK` of liveness (70_reset_and_hazards.md R250). -/

namespace Sys2Proof.Machine

/-- A list of operations run one after the other, each atomic (00_scope.md R12), stopping at the first that does
not give a next state. -/
def runOps : List Instr → State → Host.Outcome State Fault Refusal
  | [], s => .next s
  | i :: is, s =>
    match exec i s with
    | .next t => runOps is t
    | .fault f => .fault f
    | .refused r => .refused r

/-- The microseconds that pass in one operation: only `TICK` takes time (46_timebase_reset.md R200). -/
def microsOf : Instr → Nat
  | .tick n => n.toNat
  | .edgeD0 => 0
  | .edgeD1 => 0
  | .pollAbandon => 0
  | .pollComplete => 0
  | .decode _ => 0
  | .dupFilter _ => 0
  | .qPush _ => 0
  | .qPop => 0
  | .schedPoll => 0
  | .reset => 0

/-- The microseconds that pass in a list of operations. -/
def elapsed (ops : List Instr) : Nat := (ops.map microsOf).sum

/-- The queue's logical content, oldest first: `q[q_tail], q[(q_tail+1) mod N], ...`, `q_count` of them
(10_state.md R32). -/
def content (s : State) : List CardId :=
  (List.range s.qCount).map fun k => slotValue s ((s.qTail + k) % s.cfg.cap)

/-- The identifiers that entered the queue, in order: the infos of `EV_CAPTURE_SUCCESS` (44_queue.md R165). -/
def capturedIds (ev : List Event) : List CardId :=
  ev.filterMap fun e => if e.code = .captureSuccess then e.info else none

/-- The identifiers that left the queue by eviction or transmission, in order: the infos of `EV_EVICT` and
`EV_TRANSMIT_SUCCESS` (44_queue.md R162, 45_scheduler.md R182). -/
def departedIds (ev : List Event) : List CardId :=
  ev.filterMap fun e => if e.code = .evict ∨ e.code = .transmitSuccess then e.info else none

/-- The identifiers sent, in order: the infos of `EV_TRANSMIT_SUCCESS` (45_scheduler.md R182). -/
def transmittedIds (ev : List Event) : List CardId :=
  ev.filterMap fun e => if e.code = .transmitSuccess then e.info else none

/-- The invariant of the machine: what holds at reset and what every step keeps. -/
structure Invariant (s : State) : Prop where
  /-- The configuration is legal (00_scope.md R10). -/
  legal : cfgLegal s.cfg = true
  /-- The configurations to come are legal, the boot requirement of 70_reset_and_hazards.md R242. -/
  legalNext : ∀ c ∈ s.cfgNext, cfgLegal c = true
  /-- A RESET has set the state (46_timebase_reset.md R204). -/
  live : s.live = true
  /-- "count is always in [0, 26]" (10_state.md R25). -/
  count : s.fcnt.toNat ≤ 26
  /-- The cursors are in 0..N-1 (10_state.md R23, 20_memory.md R53). -/
  head : s.qHead < s.cfg.cap
  tail : s.qTail < s.cfg.cap
  /-- "occupancy ≤ capacity" (10_state.md R32). -/
  occupancy : s.qCount ≤ s.cfg.cap
  /-- `q_head = (q_tail + q_count) mod N` (10_state.md R34). -/
  cursors : s.qHead = (s.qTail + s.qCount) % s.cfg.cap
  /-- The storage is in canonical form. -/
  canonical : Memory.wf s.q = true
  /-- Only slots 0..N-1 exist (20_memory.md R50). -/
  slots : ∀ p ∈ s.q, p.1 < s.cfg.cap
  /-- Every occupied slot has been written since reset (44_queue.md R166). -/
  written : ∀ k, k < s.qCount → (Memory.read s.q ((s.qTail + k) % s.cfg.cap)).isSome = true

/-- The order the queue keeps (44_queue.md R169): what has left by eviction or transmission, then what the queue
holds, is a subsequence of what entered. -/
def OrderKept (s : State) : Prop := (departedIds s.ev ++ content s).Sublist (capturedIds s.ev)

/-- Every message is the message of its identifier, and the messages are the transmissions reported, in order
(45_scheduler.md R182, R183). -/
def OutputReported (s : State) : Prop :=
  s.out.map OutMsg.id = transmittedIds s.ev ∧ ∀ m ∈ s.out, m.bytes = message m.id

/-- An operation occurs at least once in every interval of `interval` microseconds of a list of operations
(41_frame_assembler.md R120, 45_scheduler.md R184, 70_reset_and_hazards.md R250; the interval is the OPEN parameter
of D26). DESIGN CHOICE, log entry 11: the spec does not say whether a poll at an interval's very ends is in it. Here
it is: an interval has both its ends, so polls exactly `interval` microseconds apart will do, and what is asked of
is every stretch that lasts longer. The list's own start and end count as no poll. -/
def PolledEvery (interval : Nat) (op : Instr) (ops : List Instr) : Prop :=
  ∀ seg, seg <:+: ops → interval < elapsed seg → op ∈ seg

/-- The premise `POLL_OK` of 70_reset_and_hazards.md R250, one field for each of its lines and each of the polls of
the third. -/
structure PollOk (pollInterval schedInterval : Nat) (c : Cfg) (ops : List Instr) : Prop where
  poll : pollInterval ≤ min c.partialTimeoutUs.toNat c.gapUs.toNat
  sched : schedInterval ≤ c.cadenceUs.toNat
  abandon : PolledEvery pollInterval .pollAbandon ops
  complete : PolledEvery pollInterval .pollComplete ops
  attempt : PolledEvery schedInterval .schedPoll ops

/-- How many transmission attempts a list of operations makes: polls of the scheduler that find the cadence reached
(45_scheduler.md R180, R181). -/
def attempts : List Instr → State → Nat
  | [], _ => 0
  | i :: is, s =>
    (if i = .schedPoll ∧ s.cfg.cadenceUs ≤ s.ageTx then 1 else 0) +
      match exec i s with
      | .next t => attempts is t
      | .fault _ => 0
      | .refused _ => 0

/-- The ranges of 00_scope.md R10, as numbers. -/
def CfgInRange (c : Cfg) : Prop :=
  c.deadTimeUs.toNat ≤ 4294967294 ∧ c.partialTimeoutUs.toNat ≤ 4294967294 ∧ c.gapUs.toNat ≤ 4294967294
    ∧ c.dupWindowUs.toNat ≤ 4294967294 ∧ c.cadenceUs.toNat ≤ 4294967294 ∧ 1 ≤ c.queueCap.toNat
    ∧ c.queueCap.toNat ≤ 65536

/-- One microsecond passes: the body of `TICK`'s loop, with `sat_inc(a) = min(a + 1, AGE_MAX)`
(46_timebase_reset.md R201, 00_scope.md R11). -/
def microsecond (s : State) : State :=
  let satInc (a : Age) : Age := if a = 4294967295 then a else a + 1
  { s with
    now := s.now + 1
    ageEdge := satInc s.ageEdge
    ageBit := satInc s.ageBit
    ageDup := satInc s.ageDup
    ageTx := satInc s.ageTx }

/-- The words 30_encoding.md R94 calls INVALID, by the fields of R91: an opcode of 0xB or more, a nonzero "must be
0" field, or `TICK` with n = 0. -/
def InvalidFields (w : OpWord) : Prop :=
  let opc := w.toNat / 2 ^ 28
  let low := w.toNat % 2 ^ 28
  0xB ≤ opc
    ∨ (opc ∈ [0x0, 0x1, 0x2, 0x3, 0x7, 0x8, 0xA] ∧ low ≠ 0)
    ∨ (opc = 0x4 ∧ 2 ^ 26 ≤ low)
    ∨ (opc ∈ [0x5, 0x6] ∧ 2 ^ 16 ≤ low)
    ∨ (opc = 0x9 ∧ low = 0)

/-- The events a push can raise, in order (60_exceptions.md R213). -/
def PushEvents (es : List Event) : Prop :=
  (∃ id, es = [⟨.captureSuccess, some id⟩])
    ∨ (∃ old id, es = [⟨.evict, some old⟩, ⟨.captureSuccess, some id⟩])
    ∨ (∃ id, es = [⟨.queueOverflow, some id⟩])

/-- The events each operation can raise, in order, the table of 60_exceptions.md R213. -/
def EventsAllowed : Instr → List Event → Prop
  | .edgeD0, es => es = []
  | .edgeD1, es => es = []
  | .pollAbandon, es => es = [] ∨ es = [⟨.captureError, none⟩]
  | .pollComplete, es => es = [] ∨ PushEvents es
  | .decode _, es => es = []
  | .dupFilter _, es => es = [] ∨ PushEvents es
  | .qPush _, es => es = [] ∨ PushEvents es
  | .qPop, es => es = []
  | .schedPoll, es => es = [] ∨ ∃ id, es = [⟨.transmitSuccess, some id⟩]
  | .tick _, es => es = []
  | .reset, es => es = []

end Sys2Proof.Machine
end

