-- ==== Sys2Proof/Certificates/Slice0/Obligations.lean ====
section
/-! DEFINITION. The statements for the provers, in the order of spec/: words and steps, capture, the polling
checks, the unit operations, the scheduler, time and reset, then the rules about the whole machine. -/

open Sys2Proof Sys2Proof.Machine

/-! ### Operation words and the step -/

/-- 30_encoding.md R99: the worked encodings, in both directions, and the five words it calls INVALID. -/
def Obligations.WorkedEncodingsDecode : Prop :=
  (∀ p ∈ [ ((0x00000000 : OpWord), Instr.edgeD0), (0x10000000, .edgeD1), (0x20000000, .pollAbandon),
      (0x30000000, .pollComplete), (0x40000041, .decode 0b00000000000000000001000001),
      (0x50000020, .dupFilter 0x0020), (0x6000FFFF, .qPush 0xFFFF), (0x70000000, .qPop),
      (0x80000000, .schedPoll), (0x90004E21, .tick 20001), (0xA0000000, .reset) ],
    encode p.2 = p.1 ∧ (decodeOp p.1).toOption = some p.2) ∧
  ∀ w ∈ [(0x00000001 : OpWord), 0x4C000000, 0x50010000, 0x90000000, 0xB0000000], (decodeOp w).toOption = none

/-- 30_encoding.md R90 to R92: decoding the word of a well-formed operation gives the operation back. -/
def Obligations.DecodeOfEncode : Prop :=
  ∀ i : Instr, i.wellFormed = true → decodeOp (encode i) = .ok i

/-- 30_encoding.md R90 to R93: a word that decodes is the word of the operation it decodes to, and that operation
is well-formed, so no bit of a word is dropped. -/
def Obligations.EncodeOfDecode : Prop :=
  ∀ (w : OpWord) (i : Instr), decodeOp w = .ok i → encode i = w ∧ i.wellFormed = true

/-- 30_encoding.md R93, R94: a word decodes to some operation exactly when its fields are not INVALID ones. -/
def Obligations.InvalidVerdictExactly : Prop :=
  ∀ w : OpWord, (∃ i, decodeOp w = .ok i) ↔ ¬ InvalidFields w

/-- 30_encoding.md R93, R96: where the configuration is legal and a RESET has set the state (for the word of RESET:
where the configuration it samples is legal), a step takes the next word and is `exec` of the operation the word
decodes to. -/
def Obligations.StepRunsTheDecodedOperation : Prop :=
  ∀ (s : State) (w : OpWord) (rest : List OpWord) (i : Instr), s.stim = w :: rest → decodeOp w = .ok i →
    (i ≠ .reset → s.live = true ∧ cfgLegal s.cfg = true) → (i = .reset → cfgLegal (cfgAtRelease s) = true) →
    step s = exec i { s with stim := rest }

/-- 30_encoding.md R94: an INVALID word is refused: the step sets `REFUSED` and, but for taking the word, changes
nothing else. That the machine goes on with the next word is read from 95_test_vectors.md P5 (log entry 6). -/
def Obligations.InvalidWordOnlySetsRefused : Prop :=
  ∀ (s : State) (w : OpWord) (rest : List OpWord),
    s.stim = w :: rest → cfgLegal s.cfg = true → s.live = true → InvalidFields w →
    step s = .next { s with stim := rest, refused := true }

/-- The model's choice (log entry 1; 70_reset_and_hazards.md R240, "the block waits for edges and polls"): with no
operation chosen, a step of a block that a RESET has set, under a legal configuration, changes nothing. (What a step
does with none chosen in the other states: OnlyResetStepsBeforeFirstReset, IllegalConfigurationHasNoRun.) -/
def Obligations.NoPendingWordWaits : Prop :=
  ∀ s : State, s.stim = [] → s.live = true → cfgLegal s.cfg = true → step s = .next s

/-- 46_timebase_reset.md R204, 70_reset_and_hazards.md R241: before the first RESET there is no step, with no
operation chosen or any but RESET (the model's fault, log entry 4); and RESET, sampling a legal configuration, gives
a state that a RESET has set. -/
def Obligations.OnlyResetStepsBeforeFirstReset : Prop :=
  (∀ s : State, s.stim = [] → s.live = false → step s = .fault .beforeFirstReset) ∧
  ∀ (s : State) (w : OpWord) (rest : List OpWord), s.stim = w :: rest → s.live = false →
    (w ≠ 0xA0000000 → step s = .fault .beforeFirstReset) ∧
    (w = 0xA0000000 → cfgLegal (cfgAtRelease s) = true → ∃ t, step s = .next t ∧ t.live = true ∧ t.stim = rest)

/-- 00_scope.md R10: the legal configurations are exactly those within its ranges; and there is no run (the model's
refusal, log entry 5) exactly under the others: the one a word or a waiting step finds, or the one that RESET
samples. -/
def Obligations.IllegalConfigurationHasNoRun : Prop :=
  (∀ c : Cfg, cfgLegal c = true ↔ CfgInRange c) ∧
  (∀ s : State, s.stim = [] → s.live = true →
    (step s = .refused .illegalConfiguration ↔ ¬ CfgInRange s.cfg)) ∧
  ∀ (s : State) (w : OpWord) (rest : List OpWord), s.stim = w :: rest →
    (w ≠ 0xA0000000 → s.live = true → (step s = .refused .illegalConfiguration ↔ ¬ CfgInRange s.cfg)) ∧
    (w = 0xA0000000 → (step s = .refused .illegalConfiguration ↔ ¬ CfgInRange (cfgAtRelease s)))

/-! ### Capture: 40_edge_filter.md -/

/-- 40_edge_filter.md R101, R102 (EDGE_D0, EDGE_D1): a rejected edge changes nothing; an accepted one zeroes
`age_edge`, and while the frame is not full it also appends its bit, counts it and zeroes `age_bit`. -/
def Obligations.EdgeFilterAndAppend : Prop :=
  ∀ (s : State) (i : Instr) (b : Bool), (i = .edgeD0 ∧ b = false) ∨ (i = .edgeD1 ∧ b = true) →
    ((s.cfg.deadtimeEn = true ∧ s.ageEdge ≤ s.cfg.deadTimeUs) → exec i s = .next s) ∧
    ((s.cfg.deadtimeEn = false ∨ s.cfg.deadTimeUs < s.ageEdge) →
      (s.fcnt = 26 → exec i s = .next { s with ageEdge := 0 }) ∧
      (s.fcnt < 26 → ∃ t, exec i s = .next t ∧ t.fcnt.toNat = s.fcnt.toNat + 1
        ∧ (∀ k (h : k < 26), t.fbit[k] = if k = s.fcnt.toNat then b else s.fbit[k])
        ∧ t = { s with ageEdge := 0, ageBit := 0, fcnt := t.fcnt, fbit := t.fbit }))

/-- 40_edge_filter.md R104: from a state whose last accepted edge is E microseconds old, a burst of edges, however
long, is rejected as a whole while it stays within the dead time: time passes and nothing else changes. -/
def Obligations.BouncesWithinDeadTimeChangeNothing : Prop :=
  ∀ (s : State) (ops : List Instr), s.cfg.deadtimeEn = true →
    (∀ i ∈ ops, i = .edgeD0 ∨ i = .edgeD1 ∨ ∃ n, i = .tick n) →
    s.ageEdge.toNat + elapsed ops ≤ s.cfg.deadTimeUs.toNat →
    runOps ops s = .next (passTime (elapsed ops) s)

/-- 40_edge_filter.md R106: with the dead time on, whatever other operations but RESET run, no edge is accepted
until more than `DEAD_TIME_US` has passed since the last accepted one. -/
def Obligations.AcceptedEdgesAreSeparated : Prop :=
  ∀ (s t : State) (ops : List Instr), s.cfg.deadtimeEn = true → .reset ∉ ops →
    s.ageEdge.toNat + elapsed ops ≤ s.cfg.deadTimeUs.toNat → runOps ops s = .next t →
    t.ageEdge.toNat = s.ageEdge.toNat + elapsed ops ∧ exec .edgeD0 t = .next t ∧ exec .edgeD1 t = .next t

/-- 10_state.md R28, 70_reset_and_hazards.md R242: when RESET samples a legal configuration, the first edge after it
is accepted and becomes bit 0 of a frame. -/
def Obligations.FirstEdgeAfterResetStartsAFrame : Prop :=
  ∀ s t : State, cfgLegal (cfgAtRelease s) = true → exec .reset s = .next t →
    (∃ u, exec .edgeD0 t = .next u ∧ u.fcnt = 1 ∧ u.fbit[0] = false ∧ u.ageEdge = 0 ∧ u.ageBit = 0) ∧
    (∃ u, exec .edgeD1 t = .next u ∧ u.fcnt = 1 ∧ u.fbit[0] = true ∧ u.ageEdge = 0 ∧ u.ageBit = 0)

/-- 30_encoding.md R72, R98: the operations of `FRAME raw, s`, sent into an empty buffer by edges that the filter
accepts, leave a full frame whose bits are raw's, the first received being raw[25]; nothing but the capture
state, `now` and the other ages changes. -/
def Obligations.FrameIsCapturedMostSignificantFirst : Prop :=
  ∀ (s : State) (raw : RawFrame) (sp : TickCount), sp ≠ 0 → s.fcnt = 0 →
    (s.cfg.deadtimeEn = false ∨ (s.cfg.deadTimeUs < s.ageEdge ∧ s.cfg.deadTimeUs.toNat < sp.toNat)) →
    ∃ t, runOps (PseudoOp.expand (.frame raw sp)) s = .next t ∧ t.fcnt = 26
      ∧ (∀ k (h : k < 26), t.fbit[k] = raw.getLsbD (25 - k))
      ∧ t.ageBit = 0 ∧ t.ageEdge = 0 ∧ t.now = s.now + 25 * sp.toNat
      ∧ t = { s with fbit := t.fbit, fcnt := t.fcnt, ageBit := t.ageBit, ageEdge := t.ageEdge, now := t.now,
                     ageDup := t.ageDup, ageTx := t.ageTx }

/-! ### The polling checks: 41_frame_assembler.md -/

/-- 41_frame_assembler.md R121 (POLL_ABANDON): a partial frame older than the timeout is dropped with
`EV_CAPTURE_ERROR`; in every other state of the Frame Assembler nothing changes. The word is 0x20000000. -/
def Obligations.PollAbandonDropsStaleFrame : Prop :=
  ∀ s : State,
    (0 < s.fcnt → s.fcnt < 26 → s.cfg.partialTimeoutUs < s.ageBit →
      exec .pollAbandon s = .next { s with fcnt := 0, fbit := Vector.replicate 26 false,
                                           ev := s.ev ++ [⟨.captureError, none⟩] }) ∧
    (s.fcnt = 0 ∨ s.fcnt = 26 ∨ (s.fcnt < 26 ∧ s.ageBit ≤ s.cfg.partialTimeoutUs) →
      exec .pollAbandon s = .next s) ∧
    encode .pollAbandon = 0x20000000 ∧ decodeOp 0x20000000 = .ok .pollAbandon

/-- 41_frame_assembler.md R124 (POLL_COMPLETE): a partial frame, however old, and a full one that has not settled
are left as they are. -/
def Obligations.PollCompleteWaitsForSettledFrame : Prop :=
  ∀ s : State, s.fcnt < 26 ∨ (s.fcnt = 26 ∧ s.ageBit ≤ s.cfg.gapUs) → exec .pollComplete s = .next s

/-- 41_frame_assembler.md R124, 43_dup_filter.md R152 (POLL_COMPLETE): a settled frame whose identifier repeats
within the window is consumed and nothing else changes. -/
def Obligations.PollCompleteDropsDuplicate : Prop :=
  ∀ (s : State) (raw : RawFrame), (∀ k (h : k < 26), s.fbit[k] = raw.getLsbD (25 - k)) →
    s.fcnt = 26 → s.cfg.gapUs < s.ageBit →
    s.dupValid = true → s.dupId = raw.extractLsb' 1 16 → s.ageDup < s.cfg.dupWindowUs →
    exec .pollComplete s = .next { s with fcnt := 0, fbit := Vector.replicate 26 false }

/-- 41_frame_assembler.md R124, 42_decoder.md R140, 43_dup_filter.md R150, 44_queue.md R161, R165 (POLL_COMPLETE):
a settled frame whose identifier is not suppressed enters a queue that is not full, at the slot `q_head`. -/
def Obligations.PollCompleteEnqueues : Prop :=
  ∀ (s : State) (raw : RawFrame) (id : CardId), (∀ k (h : k < 26), s.fbit[k] = raw.getLsbD (25 - k)) →
    id = raw.extractLsb' 1 16 → s.fcnt = 26 → s.cfg.gapUs < s.ageBit →
    (s.dupValid = false ∨ s.dupId ≠ id ∨ s.cfg.dupWindowUs ≤ s.ageDup) →
    s.qCount < s.cfg.cap → s.qHead < s.cfg.cap →
    exec .pollComplete s = .next
      { s with fcnt := 0, fbit := Vector.replicate 26 false, dupValid := true, dupId := id, ageDup := 0,
               q := Memory.write s.q s.qHead id, qHead := (s.qHead + 1) % s.cfg.cap, qCount := s.qCount + 1,
               ev := s.ev ++ [⟨.captureSuccess, some id⟩] }

/-- 41_frame_assembler.md R124, 44_queue.md R162 (POLL_COMPLETE under `DROP_OLDEST`): into a full queue the
identifier goes in place of the oldest entry, which is reported evicted first. -/
def Obligations.PollCompleteEvictsOldest : Prop :=
  ∀ (s : State) (raw : RawFrame) (id : CardId), (∀ k (h : k < 26), s.fbit[k] = raw.getLsbD (25 - k)) →
    id = raw.extractLsb' 1 16 → s.fcnt = 26 → s.cfg.gapUs < s.ageBit →
    (s.dupValid = false ∨ s.dupId ≠ id ∨ s.cfg.dupWindowUs ≤ s.ageDup) →
    s.cfg.overflowPolicy = .dropOldest → s.qCount = s.cfg.cap → s.qHead < s.cfg.cap → s.qTail < s.cfg.cap →
    exec .pollComplete s = .next
      { s with fcnt := 0, fbit := Vector.replicate 26 false, dupValid := true, dupId := id, ageDup := 0,
               q := Memory.write s.q s.qHead id, qHead := (s.qHead + 1) % s.cfg.cap,
               qTail := (s.qTail + 1) % s.cfg.cap,
               ev := s.ev ++ [⟨.evict, some (slotValue s s.qTail)⟩, ⟨.captureSuccess, some id⟩] }

/-- 41_frame_assembler.md R124, 43_dup_filter.md R151, 44_queue.md R163 (POLL_COMPLETE under `REJECT`): at a full
queue the identifier is lost with `EV_QUEUE_OVERFLOW`, and the duplicate state is updated all the same. -/
def Obligations.PollCompleteRejectedAtFullQueue : Prop :=
  ∀ (s : State) (raw : RawFrame) (id : CardId), (∀ k (h : k < 26), s.fbit[k] = raw.getLsbD (25 - k)) →
    id = raw.extractLsb' 1 16 → s.fcnt = 26 → s.cfg.gapUs < s.ageBit →
    (s.dupValid = false ∨ s.dupId ≠ id ∨ s.cfg.dupWindowUs ≤ s.ageDup) →
    s.cfg.overflowPolicy = .reject → s.qCount = s.cfg.cap →
    exec .pollComplete s = .next
      { s with fcnt := 0, fbit := Vector.replicate 26 false, dupValid := true, dupId := id, ageDup := 0,
               ev := s.ev ++ [⟨.queueOverflow, some id⟩] }

/-- 20_memory.md R56, 92_eei_decisions.md D9: run on one state, the two checks give the same result in either
order. -/
def Obligations.PollChecksCommute : Prop :=
  ∀ s : State, runOps [.pollAbandon, .pollComplete] s = runOps [.pollComplete, .pollAbandon] s

/-- 10_state.md R26, 41_frame_assembler.md R128: the only ways `fcnt` changes: an accepted edge counts one more
while the frame is not full; abandonment from FILLING; completion from FULL; RESET. -/
def Obligations.FrameCountTransitions : Prop :=
  ∀ (s t : State) (i : Instr), exec i s = .next t →
    t.fcnt = s.fcnt
    ∨ ((i = .edgeD0 ∨ i = .edgeD1) ∧ s.fcnt < 26 ∧ t.fcnt.toNat = s.fcnt.toNat + 1)
    ∨ (i = .pollAbandon ∧ 0 < s.fcnt ∧ s.fcnt < 26 ∧ s.cfg.partialTimeoutUs < s.ageBit ∧ t.fcnt = 0)
    ∨ (i = .pollComplete ∧ s.fcnt = 26 ∧ s.cfg.gapUs < s.ageBit ∧ t.fcnt = 0)
    ∨ (i = .reset ∧ t.fcnt = 0)

/-- 10_state.md R25, 93_implementation_defined.md U3: a count of 27 to 31 is a fault of each operation that reads
it (which of them read it: log entry 7). -/
def Obligations.FrameCountAbove26Faults : Prop :=
  ∀ s : State, 26 < s.fcnt →
    exec .pollAbandon s = .fault .frameCountOutOfRange ∧ exec .pollComplete s = .fault .frameCountOutOfRange ∧
    ((s.cfg.deadtimeEn = false ∨ s.cfg.deadTimeUs < s.ageEdge) →
      exec .edgeD0 s = .fault .frameCountOutOfRange ∧ exec .edgeD1 s = .fault .frameCountOutOfRange)

/-! ### Decoder: 42_decoder.md -/

/-- 42_decoder.md R140, R141 (DECODE): at level UNIT the identifier raw[16:1] joins `RES` and nothing else
changes. -/
def Obligations.DecodeGivesIdentifierBits : Prop :=
  ∀ (s : State) (raw : RawFrame), s.level = .unit →
    exec (.decode raw) s = .next { s with res := s.res ++ [.value (raw.extractLsb' 1 16)] }

/-- 42_decoder.md R143: the round trip through `enc(f, id, p0, p25) = (p25, f, id, p0)`. -/
def Obligations.DecoderRoundTrip : Prop :=
  ∀ (p25 : BitVec 1) (f : BitVec 8) (id : CardId) (p0 : BitVec 1), decodeId (p25 ++ f ++ id ++ p0) = id

/-! ### Duplicate Suppressor: 43_dup_filter.md -/

/-- 43_dup_filter.md R150, R152, R153 (DUP_FILTER): at level UNIT an identifier that repeats within the window gives
SUPPRESS and changes nothing else. -/
def Obligations.DupFilterSuppresses : Prop :=
  ∀ (s : State) (id : CardId), s.level = .unit →
    s.dupValid = true → s.dupId = id → s.ageDup < s.cfg.dupWindowUs →
    exec (.dupFilter id) s = .next { s with res := s.res ++ [.suppress] }

/-- 43_dup_filter.md R150, R151, R153, 44_queue.md R161 to R163 (DUP_FILTER): at level UNIT any other identifier is
forwarded: the duplicate state takes it, and it is pushed into a queue with room, in place of the oldest entry,
or rejected. -/
def Obligations.DupFilterForwards : Prop :=
  ∀ (s : State) (id : CardId), s.level = .unit →
    (s.dupValid = false ∨ s.dupId ≠ id ∨ s.cfg.dupWindowUs ≤ s.ageDup) →
    (s.qCount < s.cfg.cap → s.qHead < s.cfg.cap →
      exec (.dupFilter id) s = .next
        { s with dupValid := true, dupId := id, ageDup := 0, q := Memory.write s.q s.qHead id,
                 qHead := (s.qHead + 1) % s.cfg.cap, qCount := s.qCount + 1,
                 ev := s.ev ++ [⟨.captureSuccess, some id⟩], res := s.res ++ [.forward] }) ∧
    (s.qCount = s.cfg.cap → s.cfg.overflowPolicy = .dropOldest → s.qHead < s.cfg.cap → s.qTail < s.cfg.cap →
      exec (.dupFilter id) s = .next
        { s with dupValid := true, dupId := id, ageDup := 0, q := Memory.write s.q s.qHead id,
                 qHead := (s.qHead + 1) % s.cfg.cap, qTail := (s.qTail + 1) % s.cfg.cap,
                 ev := s.ev ++ [⟨.evict, some (slotValue s s.qTail)⟩, ⟨.captureSuccess, some id⟩],
                 res := s.res ++ [.forward] }) ∧
    (s.qCount = s.cfg.cap → s.cfg.overflowPolicy = .reject →
      exec (.dupFilter id) s = .next
        { s with dupValid := true, dupId := id, ageDup := 0,
                 ev := s.ev ++ [⟨.queueOverflow, some id⟩], res := s.res ++ [.forward] })

/-- 43_dup_filter.md R152, R154: the window runs from the last forwarding: every sighting of the last forwarded
identifier before its end gives SUPPRESS, however many there are, and none of them restarts the age. -/
def Obligations.RepeatSightingsDoNotRestartWindow : Prop :=
  ∀ (s : State) (id : CardId) (ops : List Instr), s.level = .unit → s.dupValid = true → s.dupId = id →
    (∀ i ∈ ops, i = .dupFilter id ∨ ∃ n, i = .tick n) →
    s.ageDup.toNat + elapsed ops < s.cfg.dupWindowUs.toNat →
    runOps ops s = .next { passTime (elapsed ops) s with
      res := s.res ++ List.replicate (ops.count (.dupFilter id)) .suppress }

/-- 43_dup_filter.md R155: with `DUP_WINDOW_US = 0` no identifier is suppressed: `DUP_FILTER` always answers
FORWARD, and `POLL_COMPLETE` always pushes the identifier of a settled frame. -/
def Obligations.ZeroWindowSuppressesNothing : Prop :=
  ∀ s t : State, s.cfg.dupWindowUs = 0 →
    (∀ id, s.level = .unit → exec (.dupFilter id) s = .next t →
      t.res = s.res ++ [.forward] ∧ t.dupId = id ∧ t.dupValid = true ∧ t.ageDup = 0) ∧
    (s.fcnt = 26 → s.cfg.gapUs < s.ageBit → exec .pollComplete s = .next t →
      t.dupValid = true ∧ t.ageDup = 0 ∧ ∃ es, PushEvents es ∧ t.ev = s.ev ++ es)

/-! ### Tag Queue: 44_queue.md -/

/-- 44_queue.md R160 to R165, R167 (Q_PUSH): at level UNIT, a push with room, a push under `DROP_OLDEST` into a
full queue, and a push under `REJECT` into a full queue. -/
def Obligations.QPushStoresEvictsOrRejects : Prop :=
  ∀ (s : State) (id : CardId), s.level = .unit →
    (s.qCount < s.cfg.cap → s.qHead < s.cfg.cap →
      exec (.qPush id) s = .next
        { s with q := Memory.write s.q s.qHead id, qHead := (s.qHead + 1) % s.cfg.cap, qCount := s.qCount + 1,
                 ev := s.ev ++ [⟨.captureSuccess, some id⟩], res := s.res ++ [.success] }) ∧
    (s.qCount = s.cfg.cap → s.cfg.overflowPolicy = .dropOldest → s.qHead < s.cfg.cap → s.qTail < s.cfg.cap →
      exec (.qPush id) s = .next
        { s with q := Memory.write s.q s.qHead id, qHead := (s.qHead + 1) % s.cfg.cap,
                 qTail := (s.qTail + 1) % s.cfg.cap,
                 ev := s.ev ++ [⟨.evict, some (slotValue s s.qTail)⟩, ⟨.captureSuccess, some id⟩],
                 res := s.res ++ [.success] }) ∧
    (s.qCount = s.cfg.cap → s.cfg.overflowPolicy = .reject →
      exec (.qPush id) s = .next
        { s with ev := s.ev ++ [⟨.queueOverflow, some id⟩], res := s.res ++ [.fail] })

/-- 44_queue.md R166, R168 (Q_POP): at level UNIT, an empty queue gives EMPTY and changes nothing else; any other
gives the entry at `q_tail`, advances the tail and counts one entry less. -/
def Obligations.QPopReturnsOldest : Prop :=
  ∀ s : State, s.level = .unit →
    (s.qCount = 0 → exec .qPop s = .next { s with res := s.res ++ [.empty] }) ∧
    (0 < s.qCount → s.qTail < s.cfg.cap →
      exec .qPop s = .next { s with qTail := (s.qTail + 1) % s.cfg.cap, qCount := s.qCount - 1,
                                    res := s.res ++ [.value (slotValue s s.qTail)] })

/-- 20_memory.md R50, 44_queue.md R160, R166: the frame of the storage: whatever operation runs but RESET, every
slot other than `q_head` holds what it held, and `q_head`'s holds what it held or the identifier whose capture is
the last event. -/
def Obligations.OnlyTheHeadSlotIsWritten : Prop :=
  ∀ (s t : State) (i : Instr), i ≠ .reset → exec i s = .next t →
    (∀ a, a ≠ s.qHead → slotValue t a = slotValue s a) ∧
    (slotValue t s.qHead = slotValue s s.qHead
      ∨ ∃ id, slotValue t s.qHead = id ∧ t.ev.getLast? = some ⟨.captureSuccess, some id⟩)

/-- 44_queue.md R169, R170: from an empty queue under `DROP_OLDEST`, any number of pushes leaves the last N
identifiers, in order; under `REJECT`, the first N. -/
def Obligations.PushesKeepNewestOrFirst : Prop :=
  ∀ (s t : State) (ids : List CardId), Invariant s → s.level = .unit → s.qCount = 0 →
    runOps (ids.map .qPush) s = .next t →
    (s.cfg.overflowPolicy = .dropOldest → content t = ids.drop (ids.length - s.cfg.cap)) ∧
    (s.cfg.overflowPolicy = .reject → content t = ids.take s.cfg.cap)

/-- 44_queue.md R166, R169: pops return the queue's content in order, oldest first, each entry once, and then
EMPTY. -/
def Obligations.PopsReturnContentInOrder : Prop :=
  ∀ (s : State) (k : Nat), Invariant s → s.level = .unit →
    ∃ t, runOps (List.replicate k .qPop) s = .next t ∧ content t = (content s).drop k ∧
      t.res = s.res ++ ((content s).take k).map .value ++ List.replicate (k - (content s).length) .empty

/-- 44_queue.md R171: a push and a pop that overlap on a full queue under `DROP_OLDEST`: with the pop first it
returns the oldest entry and the push evicts nothing; with the push first the oldest is evicted and the pop
returns the second-oldest. -/
def Obligations.PushAndPopInEitherOrder : Prop :=
  ∀ (s : State) (x e1 e2 : CardId) (rest : List CardId), Invariant s → s.level = .unit →
    s.cfg.overflowPolicy = .dropOldest → s.qCount = s.cfg.cap → content s = e1 :: e2 :: rest →
    (∃ t, runOps [.qPop, .qPush x] s = .next t ∧ content t = e2 :: rest ++ [x]
      ∧ t.res = s.res ++ [.value e1, .success] ∧ t.ev = s.ev ++ [⟨.captureSuccess, some x⟩]) ∧
    (∃ t, runOps [.qPush x, .qPop] s = .next t ∧ content t = rest ++ [x]
      ∧ t.res = s.res ++ [.success, .value e2]
      ∧ t.ev = s.ev ++ [⟨.evict, some e1⟩, ⟨.captureSuccess, some x⟩])

/-- 20_memory.md R53 (U4): a push or a pop that uses a slot index of N or more is a fault. 20_memory.md R50 with
93_implementation_defined.md U5: below N a pop always returns what its slot holds, which for a slot that no push has
written since reset is the free value (the model's form of "any value", log entry 3). -/
def Obligations.BadSlotFaults : Prop :=
  ∀ (s : State) (id : CardId), s.level = .unit →
    (s.qCount < s.cfg.cap → s.cfg.cap ≤ s.qHead → exec (.qPush id) s = .fault .slotOutOfRange) ∧
    (0 < s.qCount → s.cfg.cap ≤ s.qTail → exec .qPop s = .fault .slotOutOfRange) ∧
    (0 < s.qCount → s.qTail < s.cfg.cap → Memory.read s.q s.qTail = none →
      ∃ t, exec .qPop s = .next t ∧ t.res = s.res ++ [.value (Config.unwrittenSlot s.resets s.qTail)])

/-! ### Transmission Scheduler and its messages: 45_scheduler.md, 30_encoding.md R76 -/

/-- 45_scheduler.md R180 to R183 (SCHED_POLL): before the cadence nothing changes; at it the attempt restarts the
cadence, sends the oldest entry if there is one, and reports it after the message. -/
def Obligations.SchedPollSendsAtCadence : Prop :=
  ∀ s : State,
    (s.ageTx < s.cfg.cadenceUs → exec .schedPoll s = .next s) ∧
    (s.cfg.cadenceUs ≤ s.ageTx → s.qCount = 0 → exec .schedPoll s = .next { s with ageTx := 0 }) ∧
    (∀ r, r = slotValue s s.qTail → s.cfg.cadenceUs ≤ s.ageTx → 0 < s.qCount → s.qTail < s.cfg.cap →
      exec .schedPoll s = .next
        { s with ageTx := 0, qTail := (s.qTail + 1) % s.cfg.cap, qCount := s.qCount - 1,
                 out := s.out ++ [⟨r, message r⟩], ev := s.ev ++ [⟨.transmitSuccess, some r⟩] })

/-- 45_scheduler.md R184: whatever runs, RESET included, nothing is sent before `CADENCE_US` (that of the
configuration, and of those that resets may sample) has passed since the last attempt; and without RESET no attempt
at all is made, on an empty queue or not: `age_tx` is as old as time has passed. -/
def Obligations.SendsAreACadenceApart : Prop :=
  ∀ (s t : State) (ops : List Instr), runOps ops s = .next t →
    ((∀ c ∈ s.cfg :: s.cfgNext, s.ageTx.toNat + elapsed ops < c.cadenceUs.toNat) →
      t.out = s.out ∧ transmittedIds t.ev = transmittedIds s.ev) ∧
    (.reset ∉ ops → s.ageTx.toNat + elapsed ops < s.cfg.cadenceUs.toNat →
      t.ageTx.toNat = s.ageTx.toNat + elapsed ops ∧ attempts ops s = 0)

/-- 45_scheduler.md R185: over a list of operations without RESET, at most `floor(T / CADENCE_US) + 1` attempts are
made, T being the time it lasts; and under `POLL_OK` (70_reset_and_hazards.md R250) at least
`floor(T / (CADENCE_US + Q))`, Q being the scheduler's poll interval. -/
def Obligations.AttemptsInASpan : Prop :=
  ∀ (P Q : Nat) (s : State) (ops : List Instr), Invariant s → .reset ∉ ops →
    (0 < s.cfg.cadenceUs → attempts ops s ≤ elapsed ops / s.cfg.cadenceUs.toNat + 1) ∧
    (PollOk P Q s.cfg ops → elapsed ops / (s.cfg.cadenceUs.toNat + Q) ≤ attempts ops s)

/-- 30_encoding.md R76: the message is the decimal digits of the identifier in ASCII, most significant first, with
no leading zero (0 is the one digit 0), then CR and LF: 3 to 7 bytes. -/
def Obligations.MessageIsDecimalLine : Prop :=
  ∀ id : CardId, ∃ ds : List Nat,
    message id = ds.map (fun d => BitVec.ofNat 8 (48 + d)) ++ [13, 10] ∧ (∀ d ∈ ds, d ≤ 9)
      ∧ ds.foldl (fun n d => 10 * n + d) 0 = id.toNat ∧ (ds.head? = some 0 → ds = [0])
      ∧ 3 ≤ (message id).length ∧ (message id).length ≤ 7

/-! ### Time and reset: 46_timebase_reset.md -/

/-- 46_timebase_reset.md R201 (TICK): `TICK n` is n single microseconds one after the other, each counting `now`
and the four saturating age counters; which is to say that `now` grows by n, each age counter a becomes
`min(a + n, AGE_MAX)`, and nothing else changes. Its word is the opcode 0x9 above the count, and a count of 0 has no
word. -/
def Obligations.TickIsRepeatedMicroseconds : Prop :=
  ∀ (s : State) (n : TickCount), exec (.tick n) s = .next (microsecond^[n.toNat] s) ∧
    (∃ t, exec (.tick n) s = .next t ∧ t.now = s.now + n.toNat
      ∧ t.ageEdge.toNat = min (s.ageEdge.toNat + n.toNat) (2 ^ 32 - 1)
      ∧ t.ageBit.toNat = min (s.ageBit.toNat + n.toNat) (2 ^ 32 - 1)
      ∧ t.ageDup.toNat = min (s.ageDup.toNat + n.toNat) (2 ^ 32 - 1)
      ∧ t.ageTx.toNat = min (s.ageTx.toNat + n.toNat) (2 ^ 32 - 1)
      ∧ t = { s with now := t.now, ageEdge := t.ageEdge, ageBit := t.ageBit, ageDup := t.ageDup, ageTx := t.ageTx }) ∧
    encode (.tick n) = (0x9 : BitVec 4) ++ n ∧
    (decodeOp ((0x9 : BitVec 4) ++ n)).toOption = (if n = 0 then none else some (.tick n))

/-- 46_timebase_reset.md R203, 70_reset_and_hazards.md R240 (RESET): in any state, one that no RESET has set among
them, every element of the block's state takes its reset value (the storage is "left unspecified"), and `now`, `EV`,
`OUT`, `RES` and `REFUSED` stay. So does `CFG` where `cfgNext`, the model's own list of what the `cfg` inputs hold at
the releases to come, is empty (log entry 2; the other case is ResetSamplesTheConfiguration). The word is
0xA0000000. -/
def Obligations.ResetWritesTheResetValues : Prop :=
  (∀ s : State, ∃ t, exec .reset s = .next t ∧ (s.cfgNext = [] → t.cfg = s.cfg) ∧ t =
    { level := s.level, now := s.now, ev := s.ev, out := s.out, res := s.res, refused := s.refused, stim := s.stim,
      cfg := t.cfg, cfgNext := t.cfgNext, live := t.live, resets := t.resets, q := t.q,
      fbit := Vector.replicate 26 false, fcnt := 0, ageBit := 0, ageEdge := 4294967295,
      dupValid := false, dupId := 0, ageDup := 4294967295, qHead := 0, qTail := 0, qCount := 0, ageTx := 0 }) ∧
  encode .reset = 0xA0000000 ∧ decodeOp 0xA0000000 = .ok .reset

/-- 70_reset_and_hazards.md R240, 10_state.md R22: RESET leaves the block under the configuration that the `cfg`
inputs hold at the release, and is otherwise the RESET of a state that already had it. What the inputs hold at each
release is the list `cfgNext`, the model's own (log entry 2). -/
def Obligations.ResetSamplesTheConfiguration : Prop :=
  ∀ (s : State) (c : Cfg) (cs : List Cfg), s.cfgNext = c :: cs →
    ∃ t, exec .reset s = .next t ∧ t.cfg = c ∧ t.cfgNext = cs
      ∧ exec .reset { s with cfg := c, cfgNext := [] } = .next { t with cfgNext := [] }

/-- 46_timebase_reset.md R200: only `TICK` changes `now`, by its count. -/
def Obligations.OnlyTickTakesTime : Prop :=
  ∀ (s t : State) (i : Instr), exec i s = .next t → t.now = s.now + microsOf i

/-! ### The whole machine -/

/-- 30_encoding.md R95, 93_implementation_defined.md U13: at level BLOCK the unit-only operations set `REFUSED` and
change nothing else. That the refusal is a next state after which the machine goes on is read from
95_test_vectors.md P5 (log entry 6). -/
def Obligations.UnitOperationsRefusedAtBlock : Prop :=
  ∀ (s : State) (i : Instr), s.level = .block → i.unitOnly = true → exec i s = .next { s with refused := true }

/-- 30_encoding.md R95: no step clears `REFUSED`. -/
def Obligations.RefusedIsNeverCleared : Prop :=
  ∀ s t : State, step s = .next t → s.refused = true → t.refused = true

/-- 10_state.md R22, 70_reset_and_hazards.md R240: the configuration changes in no step but one of RESET's word,
which takes the next one of its inputs; and no step changes the level, a parameter of the model (30_encoding.md
R95). That both stand in State, with the inputs' configurations to come, is log entry 2. -/
def Obligations.ConfigurationIsStatic : Prop :=
  ∀ s t : State, step s = .next t → t.level = s.level ∧
    ((t.cfg = s.cfg ∧ t.cfgNext = s.cfgNext)
      ∨ ∃ rest, s.stim = 0xA0000000 :: rest ∧ s.cfgNext = t.cfg :: t.cfgNext)

/-- 10_state.md R37, 60_exceptions.md R225: what each agent's operations leave as it was: a capture operation
writes the capture state only; a poll operation writes no capture clock, no `age_tx`, no message and no time; a
scheduler operation writes neither the frame, nor the duplicate state, nor the head, nor the storage. -/
def Obligations.AgentsWriteOnlyTheirState : Prop :=
  ∀ (s t : State) (i : Instr), exec i s = .next t →
    (i.agent = .capture →
      t = { s with fbit := t.fbit, fcnt := t.fcnt, ageBit := t.ageBit, ageEdge := t.ageEdge }) ∧
    (i.agent = .poll →
      t = { s with fbit := t.fbit, fcnt := t.fcnt, dupValid := t.dupValid, dupId := t.dupId, ageDup := t.ageDup,
                   q := t.q, qHead := t.qHead, qTail := t.qTail, qCount := t.qCount, ev := t.ev, res := t.res,
                   refused := t.refused }) ∧
    (i.agent = .scheduler →
      t = { s with qTail := t.qTail, qCount := t.qCount, ageTx := t.ageTx, ev := t.ev, out := t.out, res := t.res,
                   refused := t.refused })

/-- 60_exceptions.md R213: the events each operation can raise, in order, and no others; a message goes out exactly
with `EV_TRANSMIT_SUCCESS`. -/
def Obligations.EventsOfEachOperation : Prop :=
  ∀ (s t : State) (i : Instr), exec i s = .next t →
    ∃ es, t.ev = s.ev ++ es ∧ EventsAllowed i es ∧
      t.out = s.out ++ (transmittedIds es).map fun r => ⟨r, message r⟩

/-- 10_state.md R35, 46_timebase_reset.md R203: every step, RESET's included, only adds to the traces. -/
def Obligations.TracesOnlyGrow : Prop :=
  ∀ s t : State, step s = .next t → s.ev <+: t.ev ∧ s.out <+: t.out ∧ s.res <+: t.res

/-- The reset state has the invariant. -/
def Obligations.InvariantAtReset : Prop := Invariant State.reset

/-- 46_timebase_reset.md R203, R204, 70_reset_and_hazards.md R242: RESET establishes the invariant from any state, one
that no RESET has set among them, when the configuration it samples and those to come are legal. -/
def Obligations.ResetEstablishesInvariant : Prop :=
  ∀ s t : State, cfgLegal (cfgAtRelease s) = true → (∀ c ∈ s.cfgNext, cfgLegal c = true) →
    exec .reset s = .next t → Invariant t

/-- 10_state.md R25, R32, R34, 44_queue.md R166, R170: every step keeps the invariant: the frame count in 0..26, the
cursors in 0..N-1, the occupancy at most N, `q_head = (q_tail + q_count) mod N`, the storage canonical and every
occupied slot written. -/
def Obligations.InvariantKeptByEveryStep : Prop :=
  ∀ s t : State, Invariant s → step s = .next t → Invariant t

/-- 60_exceptions.md R210, 20_memory.md R60: from every state with the invariant the machine takes a step: no
condition is fatal, and no operation, whatever word is chosen, blocks or stops. That a step with no word pending is
taken, and changes nothing, is the model's choice (log entry 1), and so is that a refused word is a next state (log
entry 6). -/
def Obligations.NoConditionStopsTheBlock : Prop :=
  ∀ s : State, Invariant s → ∃ t, step s = .next t

/-- 44_queue.md R169: every step keeps the queue's order: what has left by eviction or transmission, followed by
what the queue holds, is a subsequence of what entered, in the order it entered. -/
def Obligations.QueueOrderKeptByEveryStep : Prop :=
  ∀ s t : State, Invariant s → OrderKept s → step s = .next t → OrderKept t

/-- 44_queue.md R169: but for RESET and `Q_POP` (which records its value in `RES`), nothing leaves the queue
unreported: what entered is exactly what was evicted or transmitted, then what the queue holds. -/
def Obligations.NoIdentifierLeavesUnreported : Prop :=
  ∀ (s t : State) (i : Instr), Invariant s → i ≠ .reset → i ≠ .qPop →
    capturedIds s.ev = departedIds s.ev ++ content s → exec i s = .next t →
    capturedIds t.ev = departedIds t.ev ++ content t

/-- 45_scheduler.md R182, R183: every step keeps the output trace in agreement with the transmissions reported, each
message being its identifier's. -/
def Obligations.OutputReportedKeptByEveryStep : Prop :=
  ∀ s t : State, OutputReported s → step s = .next t → OutputReported t

/-! ### Liveness under `POLL_OK`: 70_reset_and_hazards.md R250

Each statement takes of `POLL_OK` only what it needs, the poll of one operation in every interval of P microseconds;
an interval has both its ends (the model's reading, log entry 11). -/

/-- 70_reset_and_hazards.md R250: with a completion poll in every interval of P microseconds, a full frame is
completed at most `GAP_US + 1 + P` after its last bit. -/
def Obligations.FullFrameCompletedInTime : Prop :=
  ∀ (P : Nat) (s : State) (ops : List Instr), Invariant s → s.fcnt = 26 → s.ageBit = 0 → .reset ∉ ops →
    PolledEvery P .pollComplete ops → s.cfg.gapUs.toNat + 1 + P ≤ elapsed ops →
    ∃ pre post u v, ops = pre ++ .pollComplete :: post ∧ elapsed pre ≤ s.cfg.gapUs.toNat + 1 + P
      ∧ runOps pre s = .next u ∧ u.fcnt = 26 ∧ u.fbit = s.fbit ∧ exec .pollComplete u = .next v ∧ v.fcnt = 0

/-- 70_reset_and_hazards.md R250: with an abandonment poll in every interval of P microseconds, a partial frame is
abandoned at most `PARTIAL_TIMEOUT_US + 1 + P` after its last bit, unless an edge appends a further bit first: edges
that the filter rejects do not delay it. -/
def Obligations.PartialFrameAbandonedInTime : Prop :=
  ∀ (P : Nat) (s : State) (ops : List Instr), Invariant s → 0 < s.fcnt → s.fcnt < 26 → s.ageBit = 0 →
    .reset ∉ ops → PolledEvery P .pollAbandon ops → s.cfg.partialTimeoutUs.toNat + 1 + P ≤ elapsed ops →
    ∃ pre i post u v, ops = pre ++ i :: post ∧ elapsed pre ≤ s.cfg.partialTimeoutUs.toNat + 1 + P
      ∧ runOps pre s = .next u ∧ u.fcnt = s.fcnt ∧ u.fbit = s.fbit ∧ exec i u = .next v
      ∧ ((i = .pollAbandon ∧ v.fcnt = 0 ∧ v.ev = u.ev ++ [⟨.captureError, none⟩])
        ∨ ((i = .edgeD0 ∨ i = .edgeD1) ∧ v.fcnt.toNat = s.fcnt.toNat + 1))

/-- 70_reset_and_hazards.md R250, 45_scheduler.md R184: with a scheduler poll in every interval of P microseconds,
the next attempt comes at most `CADENCE_US + P` after the last one. (A list that lasts no longer than P need hold no
poll, which matters where the cadence is 0.) -/
def Obligations.NextAttemptInTime : Prop :=
  ∀ (P : Nat) (s : State) (ops : List Instr), Invariant s → s.ageTx = 0 → .reset ∉ ops →
    PolledEvery P .schedPoll ops → s.cfg.cadenceUs.toNat + P ≤ elapsed ops → P < elapsed ops →
    ∃ pre post u v, ops = pre ++ .schedPoll :: post ∧ elapsed pre ≤ s.cfg.cadenceUs.toNat + P
      ∧ runOps pre s = .next u ∧ s.cfg.cadenceUs ≤ u.ageTx ∧ exec .schedPoll u = .next v ∧ v.ageTx = 0
      ∧ content v = (content u).drop 1
end

