-- ==== Sys2Proof/Laws/Memory.lean ====
section
/-! SUPPORT. The laws of the queue storage: reading after a write, and the canonical form kept by every write. -/

namespace Sys2Proof.Machine

@[simp] theorem Memory.read_nil (i : Nat) : Memory.read [] i = none := rfl

theorem Memory.read_cons (a : Nat) (v : CardId) (m : Memory) (i : Nat) :
    Memory.read ((a, v) :: m) i = if a = i then some v else Memory.read m i := rfl

/-- A read after a write gives the value written at the slot written, and what it gave before everywhere else. -/
theorem Memory.read_write (m : Memory) (i : Nat) (v : CardId) (j : Nat) :
    Memory.read (Memory.write m i v) j = if j = i then some v else Memory.read m j := by
  induction m with
  | nil => simp only [Memory.write, Memory.read_cons, Memory.read_nil, eq_comm]
  | cons p m ih =>
    obtain ⟨a, w⟩ := p
    simp only [Memory.write]
    split
    · subst_vars; simp only [Memory.read_cons]; split <;> simp_all [eq_comm]
    · split
      · simp only [Memory.read_cons, eq_comm]
      · simp only [Memory.read_cons, ih]; split <;> split <;> simp_all

@[simp] theorem Memory.read_write_self (m : Memory) (i : Nat) (v : CardId) :
    Memory.read (Memory.write m i v) i = some v := by simp [Memory.read_write]

theorem Memory.read_write_other (m : Memory) {i j : Nat} (v : CardId) (h : j ≠ i) :
    Memory.read (Memory.write m i v) j = Memory.read m j := by simp [Memory.read_write, h]

/-- The entries after a write are the written one and entries that stood there before. -/
theorem Memory.mem_write {m : Memory} {i : Nat} {v : CardId} {p : Nat × CardId}
    (h : p ∈ Memory.write m i v) : p = (i, v) ∨ p ∈ m := by
  induction m with
  | nil => simpa [Memory.write] using h
  | cons q m ih =>
    obtain ⟨a, w⟩ := q
    simp only [Memory.write] at h
    split at h
    · simp only [List.mem_cons] at h ⊢; tauto
    · split at h
      · simp only [List.mem_cons] at h ⊢; tauto
      · simp only [List.mem_cons] at h ⊢
        rcases h with h | h
        · tauto
        · rcases ih h with h | h <;> tauto

theorem Memory.wf_iff (m : Memory) : Memory.wf m = true ↔ m.Pairwise fun x y => x.1 < y.1 := by
  simp [Memory.wf]

@[simp] theorem Memory.wf_nil : Memory.wf [] = true := rfl

/-- A write keeps the canonical form. -/
theorem Memory.write_wf {m : Memory} (i : Nat) (v : CardId) (h : Memory.wf m = true) :
    Memory.wf (Memory.write m i v) = true := by
  rw [Memory.wf_iff] at h ⊢
  induction m with
  | nil => simp [Memory.write]
  | cons q m ih =>
    obtain ⟨a, w⟩ := q
    obtain ⟨low, rest⟩ := List.pairwise_cons.mp h
    simp only [Memory.write]
    split
    · subst_vars; exact List.pairwise_cons.mpr ⟨low, rest⟩
    · split
      · rename_i hlt
        refine List.pairwise_cons.mpr ⟨fun p hp => ?_, h⟩
        rcases List.mem_cons.mp hp with rfl | hp
        · exact hlt
        · exact lt_trans hlt (low p hp)
      · refine List.pairwise_cons.mpr ⟨fun p hp => ?_, ih rest⟩
        rcases Memory.mem_write hp with rfl | hp
        · simp only; omega
        · exact low p hp

/-- A write to a slot below a bound keeps every listed slot below it. -/
theorem Memory.write_below {m : Memory} {i n : Nat} (v : CardId) (hi : i < n) (h : ∀ p ∈ m, p.1 < n) :
    ∀ p ∈ Memory.write m i v, p.1 < n := by
  intro p hp
  rcases Memory.mem_write hp with rfl | hp
  · exact hi
  · exact h p hp

/-- A write leaves every written slot written. -/
theorem Memory.read_write_isSome {m : Memory} {j : Nat} (i : Nat) (v : CardId)
    (h : (Memory.read m j).isSome = true) : (Memory.read (Memory.write m i v) j).isSome = true := by
  rw [Memory.read_write]; split <;> simp [h]

end Sys2Proof.Machine
end

