-- ==== Sys2Proof/Laws/State.lean ====
section
/-! SUPPORT. One lemma per field per state update, each true by unfolding, so that no later proof unfolds a
record update. -/

namespace Sys2Proof.Machine

variable (s : State)

/-! ### `passTime` -/

@[simp] theorem passTime_cfg (n : Nat) : (passTime n s).cfg = s.cfg := rfl
@[simp] theorem passTime_level (n : Nat) : (passTime n s).level = s.level := rfl
@[simp] theorem passTime_fbit (n : Nat) : (passTime n s).fbit = s.fbit := rfl
@[simp] theorem passTime_fcnt (n : Nat) : (passTime n s).fcnt = s.fcnt := rfl
@[simp] theorem passTime_ageBit (n : Nat) : (passTime n s).ageBit = satAdd s.ageBit n := rfl
@[simp] theorem passTime_ageEdge (n : Nat) : (passTime n s).ageEdge = satAdd s.ageEdge n := rfl
@[simp] theorem passTime_dupValid (n : Nat) : (passTime n s).dupValid = s.dupValid := rfl
@[simp] theorem passTime_dupId (n : Nat) : (passTime n s).dupId = s.dupId := rfl
@[simp] theorem passTime_ageDup (n : Nat) : (passTime n s).ageDup = satAdd s.ageDup n := rfl
@[simp] theorem passTime_q (n : Nat) : (passTime n s).q = s.q := rfl
@[simp] theorem passTime_qHead (n : Nat) : (passTime n s).qHead = s.qHead := rfl
@[simp] theorem passTime_qTail (n : Nat) : (passTime n s).qTail = s.qTail := rfl
@[simp] theorem passTime_qCount (n : Nat) : (passTime n s).qCount = s.qCount := rfl
@[simp] theorem passTime_ageTx (n : Nat) : (passTime n s).ageTx = satAdd s.ageTx n := rfl
@[simp] theorem passTime_now (n : Nat) : (passTime n s).now = s.now + n := rfl
@[simp] theorem passTime_ev (n : Nat) : (passTime n s).ev = s.ev := rfl
@[simp] theorem passTime_out (n : Nat) : (passTime n s).out = s.out := rfl
@[simp] theorem passTime_res (n : Nat) : (passTime n s).res = s.res := rfl
@[simp] theorem passTime_refused (n : Nat) : (passTime n s).refused = s.refused := rfl
@[simp] theorem passTime_live (n : Nat) : (passTime n s).live = s.live := rfl
@[simp] theorem passTime_stim (n : Nat) : (passTime n s).stim = s.stim := rfl
@[simp] theorem passTime_cfgNext (n : Nat) : (passTime n s).cfgNext = s.cfgNext := rfl
@[simp] theorem passTime_resets (n : Nat) : (passTime n s).resets = s.resets := rfl

/-! ### `raise` -/

@[simp] theorem raise_cfg (c : EventCode) (i : Option CardId) : (raise c i s).cfg = s.cfg := rfl
@[simp] theorem raise_level (c : EventCode) (i : Option CardId) : (raise c i s).level = s.level := rfl
@[simp] theorem raise_fbit (c : EventCode) (i : Option CardId) : (raise c i s).fbit = s.fbit := rfl
@[simp] theorem raise_fcnt (c : EventCode) (i : Option CardId) : (raise c i s).fcnt = s.fcnt := rfl
@[simp] theorem raise_ageBit (c : EventCode) (i : Option CardId) : (raise c i s).ageBit = s.ageBit := rfl
@[simp] theorem raise_ageEdge (c : EventCode) (i : Option CardId) : (raise c i s).ageEdge = s.ageEdge := rfl
@[simp] theorem raise_dupValid (c : EventCode) (i : Option CardId) : (raise c i s).dupValid = s.dupValid := rfl
@[simp] theorem raise_dupId (c : EventCode) (i : Option CardId) : (raise c i s).dupId = s.dupId := rfl
@[simp] theorem raise_ageDup (c : EventCode) (i : Option CardId) : (raise c i s).ageDup = s.ageDup := rfl
@[simp] theorem raise_q (c : EventCode) (i : Option CardId) : (raise c i s).q = s.q := rfl
@[simp] theorem raise_qHead (c : EventCode) (i : Option CardId) : (raise c i s).qHead = s.qHead := rfl
@[simp] theorem raise_qTail (c : EventCode) (i : Option CardId) : (raise c i s).qTail = s.qTail := rfl
@[simp] theorem raise_qCount (c : EventCode) (i : Option CardId) : (raise c i s).qCount = s.qCount := rfl
@[simp] theorem raise_ageTx (c : EventCode) (i : Option CardId) : (raise c i s).ageTx = s.ageTx := rfl
@[simp] theorem raise_now (c : EventCode) (i : Option CardId) : (raise c i s).now = s.now := rfl
@[simp] theorem raise_ev (c : EventCode) (i : Option CardId) : (raise c i s).ev = s.ev ++ [⟨c, i⟩] := rfl
@[simp] theorem raise_out (c : EventCode) (i : Option CardId) : (raise c i s).out = s.out := rfl
@[simp] theorem raise_res (c : EventCode) (i : Option CardId) : (raise c i s).res = s.res := rfl
@[simp] theorem raise_refused (c : EventCode) (i : Option CardId) : (raise c i s).refused = s.refused := rfl
@[simp] theorem raise_live (c : EventCode) (i : Option CardId) : (raise c i s).live = s.live := rfl
@[simp] theorem raise_stim (c : EventCode) (i : Option CardId) : (raise c i s).stim = s.stim := rfl
@[simp] theorem raise_cfgNext (c : EventCode) (i : Option CardId) : (raise c i s).cfgNext = s.cfgNext := rfl
@[simp] theorem raise_resets (c : EventCode) (i : Option CardId) : (raise c i s).resets = s.resets := rfl

/-! ### `emitTx` -/

@[simp] theorem emitTx_cfg (r : CardId) : (emitTx r s).cfg = s.cfg := rfl
@[simp] theorem emitTx_level (r : CardId) : (emitTx r s).level = s.level := rfl
@[simp] theorem emitTx_fbit (r : CardId) : (emitTx r s).fbit = s.fbit := rfl
@[simp] theorem emitTx_fcnt (r : CardId) : (emitTx r s).fcnt = s.fcnt := rfl
@[simp] theorem emitTx_ageBit (r : CardId) : (emitTx r s).ageBit = s.ageBit := rfl
@[simp] theorem emitTx_ageEdge (r : CardId) : (emitTx r s).ageEdge = s.ageEdge := rfl
@[simp] theorem emitTx_dupValid (r : CardId) : (emitTx r s).dupValid = s.dupValid := rfl
@[simp] theorem emitTx_dupId (r : CardId) : (emitTx r s).dupId = s.dupId := rfl
@[simp] theorem emitTx_ageDup (r : CardId) : (emitTx r s).ageDup = s.ageDup := rfl
@[simp] theorem emitTx_q (r : CardId) : (emitTx r s).q = s.q := rfl
@[simp] theorem emitTx_qHead (r : CardId) : (emitTx r s).qHead = s.qHead := rfl
@[simp] theorem emitTx_qTail (r : CardId) : (emitTx r s).qTail = s.qTail := rfl
@[simp] theorem emitTx_qCount (r : CardId) : (emitTx r s).qCount = s.qCount := rfl
@[simp] theorem emitTx_ageTx (r : CardId) : (emitTx r s).ageTx = s.ageTx := rfl
@[simp] theorem emitTx_now (r : CardId) : (emitTx r s).now = s.now := rfl
@[simp] theorem emitTx_ev (r : CardId) : (emitTx r s).ev = s.ev := rfl
@[simp] theorem emitTx_out (r : CardId) : (emitTx r s).out = s.out ++ [⟨r, message r⟩] := rfl
@[simp] theorem emitTx_res (r : CardId) : (emitTx r s).res = s.res := rfl
@[simp] theorem emitTx_refused (r : CardId) : (emitTx r s).refused = s.refused := rfl
@[simp] theorem emitTx_live (r : CardId) : (emitTx r s).live = s.live := rfl
@[simp] theorem emitTx_stim (r : CardId) : (emitTx r s).stim = s.stim := rfl
@[simp] theorem emitTx_cfgNext (r : CardId) : (emitTx r s).cfgNext = s.cfgNext := rfl
@[simp] theorem emitTx_resets (r : CardId) : (emitTx r s).resets = s.resets := rfl

/-! ### `recordResult` -/

@[simp] theorem recordResult_cfg (r : UnitResult) : (recordResult r s).cfg = s.cfg := rfl
@[simp] theorem recordResult_level (r : UnitResult) : (recordResult r s).level = s.level := rfl
@[simp] theorem recordResult_fbit (r : UnitResult) : (recordResult r s).fbit = s.fbit := rfl
@[simp] theorem recordResult_fcnt (r : UnitResult) : (recordResult r s).fcnt = s.fcnt := rfl
@[simp] theorem recordResult_ageBit (r : UnitResult) : (recordResult r s).ageBit = s.ageBit := rfl
@[simp] theorem recordResult_ageEdge (r : UnitResult) : (recordResult r s).ageEdge = s.ageEdge := rfl
@[simp] theorem recordResult_dupValid (r : UnitResult) : (recordResult r s).dupValid = s.dupValid := rfl
@[simp] theorem recordResult_dupId (r : UnitResult) : (recordResult r s).dupId = s.dupId := rfl
@[simp] theorem recordResult_ageDup (r : UnitResult) : (recordResult r s).ageDup = s.ageDup := rfl
@[simp] theorem recordResult_q (r : UnitResult) : (recordResult r s).q = s.q := rfl
@[simp] theorem recordResult_qHead (r : UnitResult) : (recordResult r s).qHead = s.qHead := rfl
@[simp] theorem recordResult_qTail (r : UnitResult) : (recordResult r s).qTail = s.qTail := rfl
@[simp] theorem recordResult_qCount (r : UnitResult) : (recordResult r s).qCount = s.qCount := rfl
@[simp] theorem recordResult_ageTx (r : UnitResult) : (recordResult r s).ageTx = s.ageTx := rfl
@[simp] theorem recordResult_now (r : UnitResult) : (recordResult r s).now = s.now := rfl
@[simp] theorem recordResult_ev (r : UnitResult) : (recordResult r s).ev = s.ev := rfl
@[simp] theorem recordResult_out (r : UnitResult) : (recordResult r s).out = s.out := rfl
@[simp] theorem recordResult_res (r : UnitResult) : (recordResult r s).res = s.res ++ [r] := rfl
@[simp] theorem recordResult_refused (r : UnitResult) : (recordResult r s).refused = s.refused := rfl
@[simp] theorem recordResult_live (r : UnitResult) : (recordResult r s).live = s.live := rfl
@[simp] theorem recordResult_stim (r : UnitResult) : (recordResult r s).stim = s.stim := rfl
@[simp] theorem recordResult_cfgNext (r : UnitResult) : (recordResult r s).cfgNext = s.cfgNext := rfl
@[simp] theorem recordResult_resets (r : UnitResult) : (recordResult r s).resets = s.resets := rfl

/-! ### `refuseWord` -/

@[simp] theorem refuseWord_cfg : (refuseWord s).cfg = s.cfg := rfl
@[simp] theorem refuseWord_level : (refuseWord s).level = s.level := rfl
@[simp] theorem refuseWord_fbit : (refuseWord s).fbit = s.fbit := rfl
@[simp] theorem refuseWord_fcnt : (refuseWord s).fcnt = s.fcnt := rfl
@[simp] theorem refuseWord_ageBit : (refuseWord s).ageBit = s.ageBit := rfl
@[simp] theorem refuseWord_ageEdge : (refuseWord s).ageEdge = s.ageEdge := rfl
@[simp] theorem refuseWord_dupValid : (refuseWord s).dupValid = s.dupValid := rfl
@[simp] theorem refuseWord_dupId : (refuseWord s).dupId = s.dupId := rfl
@[simp] theorem refuseWord_ageDup : (refuseWord s).ageDup = s.ageDup := rfl
@[simp] theorem refuseWord_q : (refuseWord s).q = s.q := rfl
@[simp] theorem refuseWord_qHead : (refuseWord s).qHead = s.qHead := rfl
@[simp] theorem refuseWord_qTail : (refuseWord s).qTail = s.qTail := rfl
@[simp] theorem refuseWord_qCount : (refuseWord s).qCount = s.qCount := rfl
@[simp] theorem refuseWord_ageTx : (refuseWord s).ageTx = s.ageTx := rfl
@[simp] theorem refuseWord_now : (refuseWord s).now = s.now := rfl
@[simp] theorem refuseWord_ev : (refuseWord s).ev = s.ev := rfl
@[simp] theorem refuseWord_out : (refuseWord s).out = s.out := rfl
@[simp] theorem refuseWord_res : (refuseWord s).res = s.res := rfl
@[simp] theorem refuseWord_refused : (refuseWord s).refused = true := rfl
@[simp] theorem refuseWord_live : (refuseWord s).live = s.live := rfl
@[simp] theorem refuseWord_stim : (refuseWord s).stim = s.stim := rfl
@[simp] theorem refuseWord_cfgNext : (refuseWord s).cfgNext = s.cfgNext := rfl
@[simp] theorem refuseWord_resets : (refuseWord s).resets = s.resets := rfl

/-! ### `clearFrame` -/

@[simp] theorem clearFrame_cfg : (clearFrame s).cfg = s.cfg := rfl
@[simp] theorem clearFrame_level : (clearFrame s).level = s.level := rfl
@[simp] theorem clearFrame_fbit : (clearFrame s).fbit = Vector.replicate frameBits false := rfl
@[simp] theorem clearFrame_fcnt : (clearFrame s).fcnt = 0 := rfl
@[simp] theorem clearFrame_ageBit : (clearFrame s).ageBit = s.ageBit := rfl
@[simp] theorem clearFrame_ageEdge : (clearFrame s).ageEdge = s.ageEdge := rfl
@[simp] theorem clearFrame_dupValid : (clearFrame s).dupValid = s.dupValid := rfl
@[simp] theorem clearFrame_dupId : (clearFrame s).dupId = s.dupId := rfl
@[simp] theorem clearFrame_ageDup : (clearFrame s).ageDup = s.ageDup := rfl
@[simp] theorem clearFrame_q : (clearFrame s).q = s.q := rfl
@[simp] theorem clearFrame_qHead : (clearFrame s).qHead = s.qHead := rfl
@[simp] theorem clearFrame_qTail : (clearFrame s).qTail = s.qTail := rfl
@[simp] theorem clearFrame_qCount : (clearFrame s).qCount = s.qCount := rfl
@[simp] theorem clearFrame_ageTx : (clearFrame s).ageTx = s.ageTx := rfl
@[simp] theorem clearFrame_now : (clearFrame s).now = s.now := rfl
@[simp] theorem clearFrame_ev : (clearFrame s).ev = s.ev := rfl
@[simp] theorem clearFrame_out : (clearFrame s).out = s.out := rfl
@[simp] theorem clearFrame_res : (clearFrame s).res = s.res := rfl
@[simp] theorem clearFrame_refused : (clearFrame s).refused = s.refused := rfl
@[simp] theorem clearFrame_live : (clearFrame s).live = s.live := rfl
@[simp] theorem clearFrame_stim : (clearFrame s).stim = s.stim := rfl
@[simp] theorem clearFrame_cfgNext : (clearFrame s).cfgNext = s.cfgNext := rfl
@[simp] theorem clearFrame_resets : (clearFrame s).resets = s.resets := rfl

/-! ### `appendBit` -/

@[simp] theorem appendBit_cfg (b : Bool) : (appendBit b s).cfg = s.cfg := rfl
@[simp] theorem appendBit_level (b : Bool) : (appendBit b s).level = s.level := rfl
@[simp] theorem appendBit_fbit (b : Bool) : (appendBit b s).fbit = s.fbit.setIfInBounds s.fcnt.toNat b := rfl
@[simp] theorem appendBit_fcnt (b : Bool) : (appendBit b s).fcnt = s.fcnt + 1 := rfl
@[simp] theorem appendBit_ageBit (b : Bool) : (appendBit b s).ageBit = 0 := rfl
@[simp] theorem appendBit_ageEdge (b : Bool) : (appendBit b s).ageEdge = s.ageEdge := rfl
@[simp] theorem appendBit_dupValid (b : Bool) : (appendBit b s).dupValid = s.dupValid := rfl
@[simp] theorem appendBit_dupId (b : Bool) : (appendBit b s).dupId = s.dupId := rfl
@[simp] theorem appendBit_ageDup (b : Bool) : (appendBit b s).ageDup = s.ageDup := rfl
@[simp] theorem appendBit_q (b : Bool) : (appendBit b s).q = s.q := rfl
@[simp] theorem appendBit_qHead (b : Bool) : (appendBit b s).qHead = s.qHead := rfl
@[simp] theorem appendBit_qTail (b : Bool) : (appendBit b s).qTail = s.qTail := rfl
@[simp] theorem appendBit_qCount (b : Bool) : (appendBit b s).qCount = s.qCount := rfl
@[simp] theorem appendBit_ageTx (b : Bool) : (appendBit b s).ageTx = s.ageTx := rfl
@[simp] theorem appendBit_now (b : Bool) : (appendBit b s).now = s.now := rfl
@[simp] theorem appendBit_ev (b : Bool) : (appendBit b s).ev = s.ev := rfl
@[simp] theorem appendBit_out (b : Bool) : (appendBit b s).out = s.out := rfl
@[simp] theorem appendBit_res (b : Bool) : (appendBit b s).res = s.res := rfl
@[simp] theorem appendBit_refused (b : Bool) : (appendBit b s).refused = s.refused := rfl
@[simp] theorem appendBit_live (b : Bool) : (appendBit b s).live = s.live := rfl
@[simp] theorem appendBit_stim (b : Bool) : (appendBit b s).stim = s.stim := rfl
@[simp] theorem appendBit_cfgNext (b : Bool) : (appendBit b s).cfgNext = s.cfgNext := rfl
@[simp] theorem appendBit_resets (b : Bool) : (appendBit b s).resets = s.resets := rfl

/-! ### `noteForward` -/

@[simp] theorem noteForward_cfg (d : CardId) : (noteForward d s).cfg = s.cfg := rfl
@[simp] theorem noteForward_level (d : CardId) : (noteForward d s).level = s.level := rfl
@[simp] theorem noteForward_fbit (d : CardId) : (noteForward d s).fbit = s.fbit := rfl
@[simp] theorem noteForward_fcnt (d : CardId) : (noteForward d s).fcnt = s.fcnt := rfl
@[simp] theorem noteForward_ageBit (d : CardId) : (noteForward d s).ageBit = s.ageBit := rfl
@[simp] theorem noteForward_ageEdge (d : CardId) : (noteForward d s).ageEdge = s.ageEdge := rfl
@[simp] theorem noteForward_dupValid (d : CardId) : (noteForward d s).dupValid = true := rfl
@[simp] theorem noteForward_dupId (d : CardId) : (noteForward d s).dupId = d := rfl
@[simp] theorem noteForward_ageDup (d : CardId) : (noteForward d s).ageDup = 0 := rfl
@[simp] theorem noteForward_q (d : CardId) : (noteForward d s).q = s.q := rfl
@[simp] theorem noteForward_qHead (d : CardId) : (noteForward d s).qHead = s.qHead := rfl
@[simp] theorem noteForward_qTail (d : CardId) : (noteForward d s).qTail = s.qTail := rfl
@[simp] theorem noteForward_qCount (d : CardId) : (noteForward d s).qCount = s.qCount := rfl
@[simp] theorem noteForward_ageTx (d : CardId) : (noteForward d s).ageTx = s.ageTx := rfl
@[simp] theorem noteForward_now (d : CardId) : (noteForward d s).now = s.now := rfl
@[simp] theorem noteForward_ev (d : CardId) : (noteForward d s).ev = s.ev := rfl
@[simp] theorem noteForward_out (d : CardId) : (noteForward d s).out = s.out := rfl
@[simp] theorem noteForward_res (d : CardId) : (noteForward d s).res = s.res := rfl
@[simp] theorem noteForward_refused (d : CardId) : (noteForward d s).refused = s.refused := rfl
@[simp] theorem noteForward_live (d : CardId) : (noteForward d s).live = s.live := rfl
@[simp] theorem noteForward_stim (d : CardId) : (noteForward d s).stim = s.stim := rfl
@[simp] theorem noteForward_cfgNext (d : CardId) : (noteForward d s).cfgNext = s.cfgNext := rfl
@[simp] theorem noteForward_resets (d : CardId) : (noteForward d s).resets = s.resets := rfl

/-! ### `resetBlock` -/

@[simp] theorem resetBlock_cfg : (resetBlock s).cfg = s.cfg := rfl
@[simp] theorem resetBlock_level : (resetBlock s).level = s.level := rfl
@[simp] theorem resetBlock_fbit : (resetBlock s).fbit = Vector.replicate frameBits false := rfl
@[simp] theorem resetBlock_fcnt : (resetBlock s).fcnt = 0 := rfl
@[simp] theorem resetBlock_ageBit : (resetBlock s).ageBit = 0 := rfl
@[simp] theorem resetBlock_ageEdge : (resetBlock s).ageEdge = 4294967295 := rfl
@[simp] theorem resetBlock_dupValid : (resetBlock s).dupValid = false := rfl
@[simp] theorem resetBlock_dupId : (resetBlock s).dupId = 0 := rfl
@[simp] theorem resetBlock_ageDup : (resetBlock s).ageDup = 4294967295 := rfl
@[simp] theorem resetBlock_q : (resetBlock s).q = [] := rfl
@[simp] theorem resetBlock_qHead : (resetBlock s).qHead = 0 := rfl
@[simp] theorem resetBlock_qTail : (resetBlock s).qTail = 0 := rfl
@[simp] theorem resetBlock_qCount : (resetBlock s).qCount = 0 := rfl
@[simp] theorem resetBlock_ageTx : (resetBlock s).ageTx = 0 := rfl
@[simp] theorem resetBlock_now : (resetBlock s).now = s.now := rfl
@[simp] theorem resetBlock_ev : (resetBlock s).ev = s.ev := rfl
@[simp] theorem resetBlock_out : (resetBlock s).out = s.out := rfl
@[simp] theorem resetBlock_res : (resetBlock s).res = s.res := rfl
@[simp] theorem resetBlock_refused : (resetBlock s).refused = s.refused := rfl
@[simp] theorem resetBlock_live : (resetBlock s).live = true := rfl
@[simp] theorem resetBlock_stim : (resetBlock s).stim = s.stim := rfl
@[simp] theorem resetBlock_cfgNext : (resetBlock s).cfgNext = s.cfgNext := rfl
@[simp] theorem resetBlock_resets : (resetBlock s).resets = s.resets + 1 := rfl

/-! ### `sampleCfg` -/

@[simp] theorem sampleCfg_cfg : (sampleCfg s).cfg = cfgAtRelease s := rfl
@[simp] theorem sampleCfg_cfgNext : (sampleCfg s).cfgNext = s.cfgNext.tail := rfl
@[simp] theorem sampleCfg_level : (sampleCfg s).level = s.level := rfl
@[simp] theorem sampleCfg_fbit : (sampleCfg s).fbit = s.fbit := rfl
@[simp] theorem sampleCfg_fcnt : (sampleCfg s).fcnt = s.fcnt := rfl
@[simp] theorem sampleCfg_ageBit : (sampleCfg s).ageBit = s.ageBit := rfl
@[simp] theorem sampleCfg_ageEdge : (sampleCfg s).ageEdge = s.ageEdge := rfl
@[simp] theorem sampleCfg_dupValid : (sampleCfg s).dupValid = s.dupValid := rfl
@[simp] theorem sampleCfg_dupId : (sampleCfg s).dupId = s.dupId := rfl
@[simp] theorem sampleCfg_ageDup : (sampleCfg s).ageDup = s.ageDup := rfl
@[simp] theorem sampleCfg_q : (sampleCfg s).q = s.q := rfl
@[simp] theorem sampleCfg_qHead : (sampleCfg s).qHead = s.qHead := rfl
@[simp] theorem sampleCfg_qTail : (sampleCfg s).qTail = s.qTail := rfl
@[simp] theorem sampleCfg_qCount : (sampleCfg s).qCount = s.qCount := rfl
@[simp] theorem sampleCfg_ageTx : (sampleCfg s).ageTx = s.ageTx := rfl
@[simp] theorem sampleCfg_now : (sampleCfg s).now = s.now := rfl
@[simp] theorem sampleCfg_ev : (sampleCfg s).ev = s.ev := rfl
@[simp] theorem sampleCfg_out : (sampleCfg s).out = s.out := rfl
@[simp] theorem sampleCfg_res : (sampleCfg s).res = s.res := rfl
@[simp] theorem sampleCfg_refused : (sampleCfg s).refused = s.refused := rfl
@[simp] theorem sampleCfg_live : (sampleCfg s).live = s.live := rfl
@[simp] theorem sampleCfg_stim : (sampleCfg s).stim = s.stim := rfl
@[simp] theorem sampleCfg_resets : (sampleCfg s).resets = s.resets := rfl

/-! ### `placeWord` -/

@[simp] theorem placeWord_cfg (nbits w : Nat) : (placeWord nbits w s).cfg = s.cfg := rfl
@[simp] theorem placeWord_level (nbits w : Nat) : (placeWord nbits w s).level = s.level := rfl
@[simp] theorem placeWord_fbit (nbits w : Nat) : (placeWord nbits w s).fbit = s.fbit := rfl
@[simp] theorem placeWord_fcnt (nbits w : Nat) : (placeWord nbits w s).fcnt = s.fcnt := rfl
@[simp] theorem placeWord_ageBit (nbits w : Nat) : (placeWord nbits w s).ageBit = s.ageBit := rfl
@[simp] theorem placeWord_ageEdge (nbits w : Nat) : (placeWord nbits w s).ageEdge = s.ageEdge := rfl
@[simp] theorem placeWord_dupValid (nbits w : Nat) : (placeWord nbits w s).dupValid = s.dupValid := rfl
@[simp] theorem placeWord_dupId (nbits w : Nat) : (placeWord nbits w s).dupId = s.dupId := rfl
@[simp] theorem placeWord_ageDup (nbits w : Nat) : (placeWord nbits w s).ageDup = s.ageDup := rfl
@[simp] theorem placeWord_q (nbits w : Nat) : (placeWord nbits w s).q = s.q := rfl
@[simp] theorem placeWord_qHead (nbits w : Nat) : (placeWord nbits w s).qHead = s.qHead := rfl
@[simp] theorem placeWord_qTail (nbits w : Nat) : (placeWord nbits w s).qTail = s.qTail := rfl
@[simp] theorem placeWord_qCount (nbits w : Nat) : (placeWord nbits w s).qCount = s.qCount := rfl
@[simp] theorem placeWord_ageTx (nbits w : Nat) : (placeWord nbits w s).ageTx = s.ageTx := rfl
@[simp] theorem placeWord_now (nbits w : Nat) : (placeWord nbits w s).now = s.now := rfl
@[simp] theorem placeWord_ev (nbits w : Nat) : (placeWord nbits w s).ev = s.ev := rfl
@[simp] theorem placeWord_out (nbits w : Nat) : (placeWord nbits w s).out = s.out := rfl
@[simp] theorem placeWord_res (nbits w : Nat) : (placeWord nbits w s).res = s.res := rfl
@[simp] theorem placeWord_refused (nbits w : Nat) : (placeWord nbits w s).refused = s.refused := rfl
@[simp] theorem placeWord_live (nbits w : Nat) : (placeWord nbits w s).live = s.live := rfl
@[simp] theorem placeWord_stim (nbits w : Nat) :
    (placeWord nbits w s).stim = BitVec.ofNat 32 (w % 2 ^ nbits) :: s.stim := rfl
@[simp] theorem placeWord_cfgNext (nbits w : Nat) : (placeWord nbits w s).cfgNext = s.cfgNext := rfl
@[simp] theorem placeWord_resets (nbits w : Nat) : (placeWord nbits w s).resets = s.resets := rfl

/-! ### `withFetchWord` -/

@[simp] theorem withFetchWord_cfg (nbits w : Nat) : (s.withFetchWord nbits w).cfg = s.cfg := rfl
@[simp] theorem withFetchWord_level (nbits w : Nat) : (s.withFetchWord nbits w).level = s.level := rfl
@[simp] theorem withFetchWord_fbit (nbits w : Nat) : (s.withFetchWord nbits w).fbit = s.fbit := rfl
@[simp] theorem withFetchWord_fcnt (nbits w : Nat) : (s.withFetchWord nbits w).fcnt = s.fcnt := rfl
@[simp] theorem withFetchWord_ageBit (nbits w : Nat) : (s.withFetchWord nbits w).ageBit = s.ageBit := rfl
@[simp] theorem withFetchWord_ageEdge (nbits w : Nat) : (s.withFetchWord nbits w).ageEdge = s.ageEdge := rfl
@[simp] theorem withFetchWord_dupValid (nbits w : Nat) : (s.withFetchWord nbits w).dupValid = s.dupValid := rfl
@[simp] theorem withFetchWord_dupId (nbits w : Nat) : (s.withFetchWord nbits w).dupId = s.dupId := rfl
@[simp] theorem withFetchWord_ageDup (nbits w : Nat) : (s.withFetchWord nbits w).ageDup = s.ageDup := rfl
@[simp] theorem withFetchWord_q (nbits w : Nat) : (s.withFetchWord nbits w).q = s.q := rfl
@[simp] theorem withFetchWord_qHead (nbits w : Nat) : (s.withFetchWord nbits w).qHead = s.qHead := rfl
@[simp] theorem withFetchWord_qTail (nbits w : Nat) : (s.withFetchWord nbits w).qTail = s.qTail := rfl
@[simp] theorem withFetchWord_qCount (nbits w : Nat) : (s.withFetchWord nbits w).qCount = s.qCount := rfl
@[simp] theorem withFetchWord_ageTx (nbits w : Nat) : (s.withFetchWord nbits w).ageTx = s.ageTx := rfl
@[simp] theorem withFetchWord_now (nbits w : Nat) : (s.withFetchWord nbits w).now = s.now := rfl
@[simp] theorem withFetchWord_ev (nbits w : Nat) : (s.withFetchWord nbits w).ev = s.ev := rfl
@[simp] theorem withFetchWord_out (nbits w : Nat) : (s.withFetchWord nbits w).out = s.out := rfl
@[simp] theorem withFetchWord_res (nbits w : Nat) : (s.withFetchWord nbits w).res = s.res := rfl
@[simp] theorem withFetchWord_refused (nbits w : Nat) : (s.withFetchWord nbits w).refused = s.refused := rfl
@[simp] theorem withFetchWord_live (nbits w : Nat) : (s.withFetchWord nbits w).live = s.live := rfl
@[simp] theorem withFetchWord_stim (nbits w : Nat) :
    (s.withFetchWord nbits w).stim = BitVec.ofNat 32 (w % 2 ^ nbits) :: s.stim := rfl
@[simp] theorem withFetchWord_cfgNext (nbits w : Nat) : (s.withFetchWord nbits w).cfgNext = s.cfgNext := rfl
@[simp] theorem withFetchWord_resets (nbits w : Nat) : (s.withFetchWord nbits w).resets = s.resets := rfl

end Sys2Proof.Machine
end

