-- ==== Sys2Proof/Laws/Ops.lean ====
section
/-! SUPPORT. For each shared operation, one lemma that says once everything it can do. -/

namespace Sys2Proof.Machine

/-! ### Time -/

theorem satAdd_toNat (a : Age) (n : Nat) : (satAdd a n).toNat = min (a.toNat + n) ageMax := by
  simp only [satAdd, BitVec.toNat_ofNat, ageMax]; omega

@[simp] theorem satAdd_zero (a : Age) : satAdd a 0 = a := by
  apply BitVec.eq_of_toNat_eq; rw [satAdd_toNat]; have := a.isLt; simp only [ageMax]; omega

/-- Two spans of time saturate as one. -/
theorem satAdd_satAdd (a : Age) (m n : Nat) : satAdd (satAdd a m) n = satAdd a (m + n) := by
  apply BitVec.eq_of_toNat_eq; simp only [satAdd_toNat]; omega

@[simp] theorem passTime_zero (s : State) : passTime 0 s = s := by
  simp [passTime]

theorem passTime_passTime (m n : Nat) (s : State) : passTime n (passTime m s) = passTime (m + n) s := by
  simp [passTime, satAdd_satAdd, Nat.add_assoc]

/-! ### The frame -/

theorem frameState_empty_iff (s : State) : frameState s = some .empty ↔ s.fcnt = 0 := by
  simp only [frameState, BitVec.toNat_eq]
  split <;> [skip; (split <;> [skip; split])] <;> simp_all

theorem frameState_filling_iff (s : State) : frameState s = some .filling ↔ 0 < s.fcnt ∧ s.fcnt < 26 := by
  simp only [frameState, BitVec.lt_def]
  split <;> [skip; (split <;> [skip; split])] <;> simp_all
  omega

theorem frameState_full_iff (s : State) : frameState s = some .full ↔ s.fcnt = 26 := by
  simp only [frameState, BitVec.toNat_eq]
  split <;> [skip; (split <;> [skip; split])] <;> simp_all
  all_goals omega

theorem frameState_none_iff (s : State) : frameState s = none ↔ 26 < s.fcnt := by
  simp only [frameState, BitVec.lt_def]
  split <;> [skip; (split <;> [skip; split])] <;> simp_all <;> omega

theorem edgeAccepted_iff (s : State) :
    edgeAccepted s = true ↔ s.cfg.deadtimeEn = false ∨ s.cfg.deadTimeUs < s.ageEdge := by
  simp [edgeAccepted, BitVec.lt_def]

/-- Everything `edge` can do: reject and change nothing, accept while FULL, or accept and append. -/
theorem edge_ok {b : Bool} {s t : State} (h : edge b s = .ok t) :
    (edgeAccepted s = false ∧ t = s) ∨
    (edgeAccepted s = true ∧ s.fcnt = 26 ∧ t = { s with ageEdge := 0 }) ∨
    (edgeAccepted s = true ∧ s.fcnt < 26 ∧ t = appendBit b { s with ageEdge := 0 }) := by
  simp only [edge] at h
  split at h
  · rename_i ha
    split at h
    · rename_i hf
      cases h; exact .inr (.inl ⟨ha, (frameState_full_iff s).mp hf, rfl⟩)
    · rename_i f hne hf
      cases h
      refine .inr (.inr ⟨ha, ?_, rfl⟩)
      cases f
      · have := (frameState_empty_iff s).mp hf; simp [this]
      · exact ((frameState_filling_iff s).mp hf).2
      · exact absurd rfl hne
    · cases h
  · rename_i ha
    cases h; exact .inl ⟨by simpa using ha, rfl⟩

/-- `edge` stops only at a frame count above 26. -/
theorem edge_error {b : Bool} {s : State} {f : Fault} (h : edge b s = .error f) : 26 < s.fcnt := by
  simp only [edge] at h
  split at h
  · split at h <;> cases h
    rename_i hf
    exact (frameState_none_iff s).mp hf
  · cases h

/-! ### The queue -/

theorem slotValue_written {s : State} {i : Nat} {v : CardId} (h : Memory.read s.q i = some v) :
    slotValue s i = v := by simp [slotValue, h]

theorem slotValue_unwritten {s : State} {i : Nat} (h : Memory.read s.q i = none) :
    slotValue s i = Config.unwrittenSlot s.resets i := by simp [slotValue, h]

/-- What a slot holds is read from the storage and the counter of RESETs. -/
theorem slotValue_congr {s t : State} (q : t.q = s.q) (resets : t.resets = s.resets) (i : Nat) :
    slotValue t i = slotValue s i := by simp [slotValue, q, resets]

theorem memRead_ok {s : State} {i : Nat} {v : CardId} (h : memRead s i = .ok v) :
    i < s.cfg.cap ∧ v = slotValue s i := by
  simp only [memRead] at h
  split at h <;> cases h
  exact ⟨by omega, rfl⟩

theorem memRead_of_lt {s : State} {i : Nat} (hi : i < s.cfg.cap) : memRead s i = .ok (slotValue s i) := by
  simp [memRead, Nat.not_le.mpr hi]

theorem memWrite_of_lt {s : State} {i : Nat} (v : CardId) (hi : i < s.cfg.cap) :
    memWrite s i v = .ok { s with q := Memory.write s.q i v } := by
  simp [memWrite, Nat.not_le.mpr hi]

/-- The state a push leaves when it finds room. -/
def afterInsert (id : CardId) (s : State) : State :=
  { s with q := Memory.write s.q s.qHead id, qHead := adv s.cfg s.qHead, qCount := s.qCount + 1,
           ev := s.ev ++ [⟨.captureSuccess, some id⟩] }

/-- The state after the oldest entry is evicted. -/
def afterEvict (old : CardId) (s : State) : State :=
  { s with qTail := adv s.cfg s.qTail, qCount := s.qCount - 1, ev := s.ev ++ [⟨.evict, some old⟩] }

/-- The state a pop leaves. -/
def afterPop (s : State) : State := { s with qTail := adv s.cfg s.qTail, qCount := s.qCount - 1 }

theorem insertAtHead_of_lt {id : CardId} {s : State} (h : s.qHead < s.cfg.cap) :
    insertAtHead id s = .ok (afterInsert id s) := by
  simp [insertAtHead, memWrite_of_lt id h, raise, afterInsert]

theorem insertAtHead_ok {id : CardId} {s t : State} (h : insertAtHead id s = .ok t) :
    s.qHead < s.cfg.cap ∧ t = afterInsert id s := by
  by_cases hh : s.qHead < s.cfg.cap
  · rw [insertAtHead_of_lt hh] at h; cases h; exact ⟨hh, rfl⟩
  · simp [insertAtHead, memWrite, Nat.not_lt.mp hh] at h

theorem evictOldest_of_lt {s : State} (ht : s.qTail < s.cfg.cap) :
    evictOldest s = .ok (afterEvict (slotValue s s.qTail) s) := by
  simp [evictOldest, memRead_of_lt ht, raise, afterEvict]

theorem evictOldest_ok {s t : State} (h : evictOldest s = .ok t) :
    s.qTail < s.cfg.cap ∧ t = afterEvict (slotValue s s.qTail) s := by
  by_cases ht : s.qTail < s.cfg.cap
  · rw [evictOldest_of_lt ht] at h; cases h; exact ⟨ht, rfl⟩
  · simp [evictOldest, memRead, Nat.not_lt.mp ht] at h

/-- Everything `push` can do: store with room, store after evicting, or reject. -/
theorem push_ok {id : CardId} {s t : State} {r : PushResult} (h : push id s = .ok (t, r)) :
    (s.qCount < s.cfg.cap ∧ s.qHead < s.cfg.cap ∧ t = afterInsert id s ∧ r = .success) ∨
    (s.cfg.cap ≤ s.qCount ∧ s.cfg.overflowPolicy = .dropOldest ∧ s.qHead < s.cfg.cap ∧ s.qTail < s.cfg.cap ∧
      t = afterInsert id (afterEvict (slotValue s s.qTail) s) ∧ r = .success) ∨
    (s.cfg.cap ≤ s.qCount ∧ s.cfg.overflowPolicy = .reject ∧
      t = raise .queueOverflow (some id) s ∧ r = .fail) := by
  simp only [push] at h
  split at h
  · rename_i hc
    split at h <;> cases h
    rename_i hi
    obtain ⟨hh, rfl⟩ := insertAtHead_ok hi
    exact .inl ⟨hc, hh, rfl, rfl⟩
  · rename_i hc
    have hc : s.cfg.cap ≤ s.qCount := by omega
    split at h
    · rename_i hp
      split at h
      · rename_i u he
        obtain ⟨ht, rfl⟩ := evictOldest_ok he
        split at h <;> cases h
        rename_i hi
        obtain ⟨hh, rfl⟩ := insertAtHead_ok hi
        exact .inr (.inl ⟨hc, hp, hh, ht, rfl, rfl⟩)
      · cases h
    · rename_i hp
      cases h; exact .inr (.inr ⟨hc, hp, rfl, rfl⟩)

theorem push_with_room {id : CardId} {s : State} (hc : s.qCount < s.cfg.cap) (hh : s.qHead < s.cfg.cap) :
    push id s = .ok (afterInsert id s, .success) := by
  simp [push, hc, insertAtHead_of_lt hh]

theorem push_evicting {id : CardId} {s : State} (hc : s.cfg.cap ≤ s.qCount)
    (hp : s.cfg.overflowPolicy = .dropOldest) (hh : s.qHead < s.cfg.cap) (ht : s.qTail < s.cfg.cap) :
    push id s = .ok (afterInsert id (afterEvict (slotValue s s.qTail) s), .success) := by
  have hh' : ∀ old, (afterEvict old s).qHead < (afterEvict old s).cfg.cap := fun _ => hh
  simp [push, Nat.not_lt.mpr hc, hp, evictOldest_of_lt ht, insertAtHead_of_lt (hh' _)]

theorem push_rejected {id : CardId} {s : State} (hc : s.cfg.cap ≤ s.qCount)
    (hp : s.cfg.overflowPolicy = .reject) :
    push id s = .ok (raise .queueOverflow (some id) s, .fail) := by
  simp [push, Nat.not_lt.mpr hc, hp]

/-- Everything `pop` can do: find the queue empty, or take the entry at the tail. -/
theorem pop_ok {s t : State} {r : Option CardId} (h : pop s = .ok (t, r)) :
    (s.qCount = 0 ∧ t = s ∧ r = none) ∨
    (0 < s.qCount ∧ s.qTail < s.cfg.cap ∧ t = afterPop s ∧ r = some (slotValue s s.qTail)) := by
  by_cases hc : s.qCount = 0
  · simp [pop, qEmpty, hc] at h
    exact .inl ⟨hc, h.1.symm, h.2.symm⟩
  · simp only [pop, qEmpty, beq_iff_eq, hc, if_false] at h
    split at h <;> cases h
    rename_i v hr
    obtain ⟨ht, rfl⟩ := memRead_ok hr
    exact .inr ⟨by omega, ht, rfl, rfl⟩

theorem pop_empty {s : State} (hc : s.qCount = 0) : pop s = .ok (s, none) := by simp [pop, qEmpty, hc]

theorem pop_entry {s : State} (hc : 0 < s.qCount) (ht : s.qTail < s.cfg.cap) :
    pop s = .ok (afterPop s, some (slotValue s s.qTail)) := by
  have : ¬ s.qCount = 0 := by omega
  simp [pop, qEmpty, this, memRead_of_lt ht, afterPop]

/-! ### The duplicate check -/

theorem suppressed_iff (id : CardId) (s : State) :
    suppressed id s = true ↔ s.dupValid = true ∧ s.dupId = id ∧ s.ageDup < s.cfg.dupWindowUs := by
  simp [suppressed, BitVec.lt_def, and_assoc]

theorem not_suppressed_iff (id : CardId) (s : State) :
    suppressed id s = false ↔ s.dupValid = false ∨ s.dupId ≠ id ∨ s.cfg.dupWindowUs ≤ s.ageDup := by
  rw [← Bool.not_eq_true, suppressed_iff, BitVec.lt_def, BitVec.le_def]
  cases s.dupValid <;> simp
  tauto

/-- Everything `offer` can do: suppress and change nothing, or note the forward and push. -/
theorem offer_ok {id : CardId} {s t : State} {d : DupVerdict} (h : offer id s = .ok (t, d)) :
    (suppressed id s = true ∧ t = s ∧ d = .suppress) ∨
    (suppressed id s = false ∧ d = .forward ∧ ∃ r, push id (noteForward id s) = .ok (t, r)) := by
  simp only [offer] at h
  split at h
  · rename_i hs
    cases h; exact .inl ⟨hs, rfl, rfl⟩
  · rename_i hs
    split at h <;> cases h
    rename_i r hp
    exact .inr ⟨by simpa using hs, rfl, r, hp⟩

theorem offer_suppressed {id : CardId} {s : State} (h : suppressed id s = true) :
    offer id s = .ok (s, .suppress) := by simp [offer, h]

theorem offer_forwarded {id : CardId} {s t : State} {r : PushResult} (h : suppressed id s = false)
    (hp : push id (noteForward id s) = .ok (t, r)) : offer id s = .ok (t, .forward) := by
  simp [offer, h, hp]

/-! ### The level -/

theorem atUnitLevel_unit {s : State} (o : Host.Outcome State Fault Refusal) (h : s.level = .unit) :
    atUnitLevel s o = o := by simp [atUnitLevel, h]

theorem atUnitLevel_block {s : State} (o : Host.Outcome State Fault Refusal) (h : s.level = .block) :
    atUnitLevel s o = .next (refuseWord s) := by simp [atUnitLevel, h]

/-! ### The message -/

theorem decimalDigits_spec (fuel v : Nat) (h : v < 10 ^ (fuel + 1)) :
    (∀ d ∈ decimalDigits fuel v, d ≤ 9)
      ∧ (decimalDigits fuel v).foldl (fun n d => 10 * n + d) 0 = v
      ∧ ((decimalDigits fuel v).head? = some 0 → decimalDigits fuel v = [0])
      ∧ 1 ≤ (decimalDigits fuel v).length ∧ (decimalDigits fuel v).length ≤ fuel + 1 := by
  induction fuel generalizing v with
  | zero =>
    have : v < 10 := by simpa using h
    simp [decimalDigits, Nat.mod_eq_of_lt this]; omega
  | succ fuel ih =>
    simp only [decimalDigits]
    split
    · rename_i hv
      simp; omega
    · rename_i hv
      obtain ⟨h1, h2, h3, h4, h5⟩ := ih (v / 10) (by rw [pow_succ] at h; omega)
      refine ⟨?_, ?_, ?_, ?_, ?_⟩
      · intro d hd
        rcases List.mem_append.mp hd with hd | hd
        · exact h1 d hd
        · simp at hd; omega
      · rw [List.foldl_append, h2]; simp; omega
      · intro h0
        rw [List.head?_append_of_ne_nil _ (by intro hn; simp [hn] at h4)] at h0
        have := h3 h0
        rw [this] at h2
        simp at h2; omega
      · simp
      · simp; omega

end Sys2Proof.Machine
end

