-- ==== Sys2Proof/Laws/Exec.lean ====
section
/-! SUPPORT. For each operation, one lemma that says once what it can do when it gives a next state; and the laws of
runs over a list of operations. -/

namespace Sys2Proof.Machine

theorem outcomeOf_next {x : Except Fault State} {t : State} (h : outcomeOf x = .next t) : x = .ok t := by
  cases x with
  | ok u => simpa [outcomeOf] using h
  | error f => simp [outcomeOf] at h

theorem exec_edgeD0_next {s t : State} (h : exec .edgeD0 s = .next t) : edge false s = .ok t :=
  outcomeOf_next h

theorem exec_edgeD1_next {s t : State} (h : exec .edgeD1 s = .next t) : edge true s = .ok t :=
  outcomeOf_next h

theorem exec_pollAbandon_next {s t : State} (h : exec .pollAbandon s = .next t) :
    t = s ∨ (0 < s.fcnt ∧ s.fcnt < 26 ∧ s.cfg.partialTimeoutUs < s.ageBit
      ∧ t = raise .captureError none (clearFrame s)) := by
  simp only [exec, execPollAbandon] at h
  split at h
  · rename_i hf
    obtain ⟨h0, h1⟩ := (frameState_filling_iff s).mp hf
    split at h <;> cases h
    · rename_i ha
      exact .inr ⟨h0, h1, BitVec.lt_def.mpr ha, rfl⟩
    · exact .inl rfl
  · cases h; exact .inl rfl
  · cases h

theorem exec_pollComplete_next {s t : State} (h : exec .pollComplete s = .next t) :
    t = s ∨ (s.fcnt = 26 ∧ s.cfg.gapUs < s.ageBit
      ∧ ∃ d, offer (decodeId (frameRaw s.fbit)) (clearFrame s) = .ok (t, d)) := by
  simp only [exec, execPollComplete] at h
  split at h
  · rename_i hf
    have hf := (frameState_full_iff s).mp hf
    split at h
    · rename_i ha
      split at h <;> cases h
      rename_i d ho
      exact .inr ⟨hf, BitVec.lt_def.mpr ha, d, ho⟩
    · cases h; exact .inl rfl
  · cases h; exact .inl rfl
  · cases h

theorem exec_decode_next {raw : RawFrame} {s t : State} (h : exec (.decode raw) s = .next t) :
    (s.level = .unit ∧ t = recordResult (.value (decodeId raw)) s) ∨ (s.level = .block ∧ t = refuseWord s) := by
  simp only [exec, execDecode, atUnitLevel] at h
  split at h <;> cases h
  · exact .inl ⟨‹_›, rfl⟩
  · exact .inr ⟨‹_›, rfl⟩

theorem exec_dupFilter_next {id : CardId} {s t : State} (h : exec (.dupFilter id) s = .next t) :
    (s.level = .unit ∧ ∃ u, (offer id s = .ok (u, .forward) ∧ t = recordResult .forward u)
      ∨ (offer id s = .ok (u, .suppress) ∧ t = recordResult .suppress u))
    ∨ (s.level = .block ∧ t = refuseWord s) := by
  simp only [exec, execDupFilter, atUnitLevel] at h
  split at h
  · refine .inl ⟨‹_›, ?_⟩
    split at h <;> cases h
    · exact ⟨_, .inl ⟨‹_›, rfl⟩⟩
    · exact ⟨_, .inr ⟨‹_›, rfl⟩⟩
  · cases h; exact .inr ⟨‹_›, rfl⟩

theorem exec_qPush_next {id : CardId} {s t : State} (h : exec (.qPush id) s = .next t) :
    (s.level = .unit ∧ ∃ u, (push id s = .ok (u, .success) ∧ t = recordResult .success u)
      ∨ (push id s = .ok (u, .fail) ∧ t = recordResult .fail u))
    ∨ (s.level = .block ∧ t = refuseWord s) := by
  simp only [exec, execQPush, atUnitLevel] at h
  split at h
  · refine .inl ⟨‹_›, ?_⟩
    split at h <;> cases h
    · exact ⟨_, .inl ⟨‹_›, rfl⟩⟩
    · exact ⟨_, .inr ⟨‹_›, rfl⟩⟩
  · cases h; exact .inr ⟨‹_›, rfl⟩

theorem exec_qPop_next {s t : State} (h : exec .qPop s = .next t) :
    (s.level = .unit ∧ ((s.qCount = 0 ∧ t = recordResult .empty s)
      ∨ (0 < s.qCount ∧ s.qTail < s.cfg.cap ∧ t = recordResult (.value (slotValue s s.qTail)) (afterPop s))))
    ∨ (s.level = .block ∧ t = refuseWord s) := by
  simp only [exec, execQPop, atUnitLevel] at h
  split at h
  · refine .inl ⟨‹_›, ?_⟩
    split at h <;> cases h
    all_goals rename_i hp
    · obtain ⟨_, _, hn⟩ | ⟨h0, ht, rfl, hv⟩ := pop_ok hp
      · cases hn
      · cases hv; exact .inr ⟨h0, ht, rfl⟩
    · obtain ⟨h0, rfl, _⟩ | ⟨_, _, _, hv⟩ := pop_ok hp
      · exact .inl ⟨h0, rfl⟩
      · cases hv
  · cases h; exact .inr ⟨‹_›, rfl⟩

theorem exec_schedPoll_next {s t : State} (h : exec .schedPoll s = .next t) :
    (s.ageTx < s.cfg.cadenceUs ∧ t = s) ∨
    (s.cfg.cadenceUs ≤ s.ageTx ∧ s.qCount = 0 ∧ t = { s with ageTx := 0 }) ∨
    (s.cfg.cadenceUs ≤ s.ageTx ∧ 0 < s.qCount ∧ s.qTail < s.cfg.cap
      ∧ t = raise .transmitSuccess (some (slotValue s s.qTail))
          (emitTx (slotValue s s.qTail) (afterPop { s with ageTx := 0 }))) := by
  simp only [exec, execSchedPoll] at h
  split at h
  · rename_i hc
    have hc := BitVec.le_def.mpr hc
    split at h <;> cases h
    all_goals rename_i hp
    · obtain ⟨_, _, hn⟩ | ⟨h0, ht, rfl, hv⟩ := pop_ok hp
      · cases hn
      · cases hv; exact .inr (.inr ⟨hc, h0, ht, rfl⟩)
    · obtain ⟨h0, rfl, _⟩ | ⟨_, _, _, hv⟩ := pop_ok hp
      · exact .inr (.inl ⟨hc, h0, rfl⟩)
      · cases hv
  · rename_i hc
    cases h; exact .inl ⟨BitVec.lt_def.mpr (by omega), rfl⟩

theorem exec_tick_next {n : TickCount} {s t : State} (h : exec (.tick n) s = .next t) : t = passTime n.toNat s := by
  simp only [exec, execTick, tickMicros] at h
  cases h; rfl

theorem exec_reset_next {s t : State} (h : exec .reset s = .next t) : t = resetBlock (sampleCfg s) := by
  simp only [exec, execReset] at h
  cases h; rfl

/-! ### Taking a word -/

/-- What a state that has a step holds, and what the others answer. -/
theorem stopInForce_none_iff (s : State) : stopInForce s = none ↔ s.live = true ∧ cfgLegal s.cfg = true := by
  simp only [stopInForce]
  split <;> (try split) <;> simp_all

theorem stopInForce_not_live {s : State} (h : s.live = false) : stopInForce s = some (.fault .beforeFirstReset) := by
  simp [stopInForce, h]

theorem stopInForce_illegal {s : State} (hl : s.live = true) (h : cfgLegal s.cfg = false) :
    stopInForce s = some (.refused .illegalConfiguration) := by simp [stopInForce, hl, h]

theorem stopInForce_ne_next (s t : State) : stopInForce s ≠ some (.next t) := by
  simp only [stopInForce]
  split <;> (try split) <;> simp

theorem stopBefore_ne_next (s t : State) (d : Except Invalid Instr) : stopBefore s d ≠ some (.next t) := by
  simp only [stopBefore]
  split
  · split <;> simp
  · exact stopInForce_ne_next s t

/-- A word that is taken finds a legal configuration, and a state that a RESET has set unless it is `RESET`. -/
theorem stopBefore_none {s : State} {d : Except Invalid Instr} (h : stopBefore s d = none) :
    (d = .ok .reset ∧ cfgLegal (cfgAtRelease s) = true)
      ∨ (d ≠ .ok .reset ∧ s.live = true ∧ cfgLegal s.cfg = true) := by
  simp only [stopBefore] at h
  split at h
  · split at h
    · exact .inl ⟨rfl, ‹_›⟩
    · cases h
  · rename_i hd
    exact .inr ⟨hd, (stopInForce_none_iff s).mp h⟩

/-- Everything a step that gives a next state can do: wait, refuse an INVALID word, or run an operation. -/
theorem step_next {s t : State} (h : step s = .next t) :
    (s.stim = [] ∧ s.live = true ∧ cfgLegal s.cfg = true ∧ t = s) ∨
    (∃ w rest, s.stim = w :: rest ∧
      ((s.live = true ∧ cfgLegal s.cfg = true ∧ (∃ e, decodeOp w = .error e)
          ∧ t = refuseWord { s with stim := rest }) ∨
       (∃ i, decodeOp w = .ok i
          ∧ ((i = .reset ∧ cfgLegal (cfgAtRelease s) = true) ∨ (s.live = true ∧ cfgLegal s.cfg = true))
          ∧ exec i { s with stim := rest } = .next t))) := by
  simp only [step, fetchWord] at h
  cases hs : s.stim with
  | nil =>
    simp only [hs] at h
    cases hstop : stopInForce s with
    | some stop => simp only [hstop] at h; exact absurd (h ▸ hstop) (stopInForce_ne_next s t)
    | none =>
      simp only [hstop] at h; cases h
      obtain ⟨hv, hl⟩ := (stopInForce_none_iff s).mp hstop
      exact .inl ⟨rfl, hv, hl, rfl⟩
  | cons w rest =>
    refine .inr ⟨w, rest, rfl, ?_⟩
    simp only [hs] at h
    cases hstop : stopBefore { s with stim := rest } (decodeOp w) with
    | some stop => simp only [hstop] at h; exact absurd (h ▸ hstop) (stopBefore_ne_next _ t _)
    | none =>
      simp only [hstop] at h
      cases hd : decodeOp w with
      | ok i =>
        simp only [hd] at h
        refine .inr ⟨i, rfl, ?_, h⟩
        rcases stopBefore_none hstop with ⟨hr, hl⟩ | ⟨_, hv, hl⟩
        · rw [hd] at hr; cases hr; exact .inl ⟨rfl, hl⟩
        · exact .inr ⟨hv, hl⟩
      | error e =>
        simp only [hd] at h; cases h
        rcases stopBefore_none hstop with ⟨hr, _⟩ | ⟨_, hv, hl⟩
        · rw [hd] at hr; cases hr
        · exact .inl ⟨hv, hl, ⟨e, rfl⟩, rfl⟩

/-! ### Runs over a list of operations -/

@[simp] theorem runOps_nil (s : State) : runOps [] s = .next s := rfl

theorem runOps_cons_next {i : Instr} {s t : State} (is : List Instr) (h : exec i s = .next t) :
    runOps (i :: is) s = runOps is t := by simp [runOps, h]

theorem runOps_cons {i : Instr} {is : List Instr} {s u : State} (h : runOps (i :: is) s = .next u) :
    ∃ t, exec i s = .next t ∧ runOps is t = .next u := by
  simp only [runOps] at h
  split at h
  · exact ⟨_, ‹_›, h⟩
  · cases h
  · cases h

theorem runOps_append {is js : List Instr} {s t : State} (h : runOps is s = .next t) :
    runOps (is ++ js) s = runOps js t := by
  induction is generalizing s with
  | nil => simp at h; subst h; rfl
  | cons i is ih =>
    obtain ⟨u, hu, h⟩ := runOps_cons h
    rw [List.cons_append, runOps_cons_next _ hu, ih h]

@[simp] theorem elapsed_nil : elapsed [] = 0 := rfl

@[simp] theorem elapsed_cons (i : Instr) (is : List Instr) : elapsed (i :: is) = microsOf i + elapsed is := by
  simp [elapsed]

@[simp] theorem elapsed_append (is js : List Instr) : elapsed (is ++ js) = elapsed is + elapsed js := by
  simp [elapsed]

end Sys2Proof.Machine
end

