-- ==== Sys2Proof/Laws/Effect.lean ====
section
/-! SUPPORT. Everything an operation can do, said once as a relation between the state before and the state after:
`exec_effect` turns a next state of `exec` into one of its cases, so that a proof about every operation splits
these and unfolds no meaning. -/

namespace Sys2Proof.Machine

/-- What a push can leave (44_queue.md R160 to R165). -/
inductive Pushed (id : CardId) (s : State) : State → PushResult → Prop where
  | stored (room : s.qCount < s.cfg.cap) (head : s.qHead < s.cfg.cap) : Pushed id s (afterInsert id s) .success
  | replaced (full : s.cfg.cap ≤ s.qCount) (policy : s.cfg.overflowPolicy = .dropOldest)
      (head : s.qHead < s.cfg.cap) (tail : s.qTail < s.cfg.cap) :
      Pushed id s (afterInsert id (afterEvict (slotValue s s.qTail) s)) .success
  | rejected (full : s.cfg.cap ≤ s.qCount) (policy : s.cfg.overflowPolicy = .reject) :
      Pushed id s (raise .queueOverflow (some id) s) .fail

/-- What the duplicate check and the push after it can leave (43_dup_filter.md R150 to R152). -/
inductive Offered (id : CardId) (s : State) : State → DupVerdict → Prop where
  | dropped (repeated : suppressed id s = true) : Offered id s s .suppress
  | passed {t : State} {r : PushResult} (fresh : suppressed id s = false) (push : Pushed id (noteForward id s) t r) :
      Offered id s t .forward

/-- The bit an edge operation carries (30_encoding.md R98). -/
inductive EdgeOf : Instr → Bool → Prop where
  | d0 : EdgeOf .edgeD0 false
  | d1 : EdgeOf .edgeD1 true

/-- What each operation can leave. -/
inductive Effect (s : State) : Instr → State → Prop where
  | edgeRejected {i : Instr} {b : Bool} (line : EdgeOf i b) (no : edgeAccepted s = false) : Effect s i s
  | edgeIgnored {i : Instr} {b : Bool} (line : EdgeOf i b) (yes : edgeAccepted s = true) (full : s.fcnt = 26) :
      Effect s i { s with ageEdge := 0 }
  | edgeAppended {i : Instr} {b : Bool} (line : EdgeOf i b) (yes : edgeAccepted s = true) (room : s.fcnt < 26) :
      Effect s i (appendBit b { s with ageEdge := 0 })
  | abandonIdle : Effect s .pollAbandon s
  | abandoned (begun : 0 < s.fcnt) (few : s.fcnt < 26) (stale : s.cfg.partialTimeoutUs < s.ageBit) :
      Effect s .pollAbandon (raise .captureError none (clearFrame s))
  | completeIdle : Effect s .pollComplete s
  | completed {t : State} {d : DupVerdict} (full : s.fcnt = 26) (settled : s.cfg.gapUs < s.ageBit)
      (offer : Offered (decodeId (frameRaw s.fbit)) (clearFrame s) t d) : Effect s .pollComplete t
  | unitRefused {i : Instr} (block : s.level = .block) (only : i.unitOnly = true) : Effect s i (refuseWord s)
  | decoded (raw : RawFrame) (unit : s.level = .unit) :
      Effect s (.decode raw) (recordResult (.value (decodeId raw)) s)
  | filteredForward {id : CardId} {t : State} (unit : s.level = .unit) (offer : Offered id s t .forward) :
      Effect s (.dupFilter id) (recordResult .forward t)
  | filteredSuppress {id : CardId} {t : State} (unit : s.level = .unit) (offer : Offered id s t .suppress) :
      Effect s (.dupFilter id) (recordResult .suppress t)
  | pushedSuccess {id : CardId} {t : State} (unit : s.level = .unit) (push : Pushed id s t .success) :
      Effect s (.qPush id) (recordResult .success t)
  | pushedFail {id : CardId} {t : State} (unit : s.level = .unit) (push : Pushed id s t .fail) :
      Effect s (.qPush id) (recordResult .fail t)
  | popEmpty (unit : s.level = .unit) (vacant : s.qCount = 0) : Effect s .qPop (recordResult .empty s)
  | popEntry (unit : s.level = .unit) (held : 0 < s.qCount) (tail : s.qTail < s.cfg.cap) :
      Effect s .qPop (recordResult (.value (slotValue s s.qTail)) (afterPop s))
  | schedIdle (early : s.ageTx < s.cfg.cadenceUs) : Effect s .schedPoll s
  | schedEmpty (due : s.cfg.cadenceUs ≤ s.ageTx) (vacant : s.qCount = 0) : Effect s .schedPoll { s with ageTx := 0 }
  | schedSent (due : s.cfg.cadenceUs ≤ s.ageTx) (held : 0 < s.qCount) (tail : s.qTail < s.cfg.cap) :
      Effect s .schedPoll (raise .transmitSuccess (some (slotValue s s.qTail))
        (emitTx (slotValue s s.qTail) (afterPop { s with ageTx := 0 })))
  | ticked (n : TickCount) : Effect s (.tick n) (passTime n.toNat s)
  | reset : Effect s .reset (resetBlock (sampleCfg s))

theorem pushed_of_push {id : CardId} {s t : State} {r : PushResult} (h : push id s = .ok (t, r)) :
    Pushed id s t r := by
  rcases push_ok h with ⟨hc, hh, rfl, rfl⟩ | ⟨hc, hp, hh, ht, rfl, rfl⟩ | ⟨hc, hp, rfl, rfl⟩
  · exact .stored hc hh
  · exact .replaced hc hp hh ht
  · exact .rejected hc hp

theorem offered_of_offer {id : CardId} {s t : State} {d : DupVerdict} (h : offer id s = .ok (t, d)) :
    Offered id s t d := by
  rcases offer_ok h with ⟨hs, rfl, rfl⟩ | ⟨hs, rfl, r, hp⟩
  · exact .dropped hs
  · exact .passed hs (pushed_of_push hp)

theorem edge_effect {i : Instr} {b : Bool} {s t : State} (line : EdgeOf i b) (h : edge b s = .ok t) :
    Effect s i t := by
  rcases edge_ok h with ⟨ha, rfl⟩ | ⟨ha, hf, rfl⟩ | ⟨ha, hf, rfl⟩
  · exact .edgeRejected line ha
  · exact .edgeIgnored line ha hf
  · exact .edgeAppended line ha hf

/-- Every next state of `exec` is one of the effects of its operation. -/
theorem exec_effect {i : Instr} {s t : State} (h : exec i s = .next t) : Effect s i t := by
  cases i with
  | edgeD0 => exact edge_effect .d0 (exec_edgeD0_next h)
  | edgeD1 => exact edge_effect .d1 (exec_edgeD1_next h)
  | pollAbandon =>
    rcases exec_pollAbandon_next h with rfl | ⟨h0, h1, ha, rfl⟩
    · exact .abandonIdle
    · exact .abandoned h0 h1 ha
  | pollComplete =>
    rcases exec_pollComplete_next h with rfl | ⟨hf, ha, d, ho⟩
    · exact .completeIdle
    · exact .completed hf ha (offered_of_offer ho)
  | decode raw =>
    rcases exec_decode_next h with ⟨hl, rfl⟩ | ⟨hl, rfl⟩
    · exact .decoded raw hl
    · exact .unitRefused hl rfl
  | dupFilter id =>
    rcases exec_dupFilter_next h with ⟨hl, u, ⟨ho, rfl⟩ | ⟨ho, rfl⟩⟩ | ⟨hl, rfl⟩
    · exact .filteredForward hl (offered_of_offer ho)
    · exact .filteredSuppress hl (offered_of_offer ho)
    · exact .unitRefused hl rfl
  | qPush id =>
    rcases exec_qPush_next h with ⟨hl, u, ⟨hp, rfl⟩ | ⟨hp, rfl⟩⟩ | ⟨hl, rfl⟩
    · exact .pushedSuccess hl (pushed_of_push hp)
    · exact .pushedFail hl (pushed_of_push hp)
    · exact .unitRefused hl rfl
  | qPop =>
    rcases exec_qPop_next h with ⟨hl, ⟨hc, rfl⟩ | ⟨hc, ht, rfl⟩⟩ | ⟨hl, rfl⟩
    · exact .popEmpty hl hc
    · exact .popEntry hl hc ht
    · exact .unitRefused hl rfl
  | schedPoll =>
    rcases exec_schedPoll_next h with ⟨hc, rfl⟩ | ⟨hc, h0, rfl⟩ | ⟨hc, h0, ht, rfl⟩
    · exact .schedIdle hc
    · exact .schedEmpty hc h0
    · exact .schedSent hc h0 ht
  | tick n => rw [exec_tick_next h]; exact .ticked n
  | reset => rw [exec_reset_next h]; exact .reset

end Sys2Proof.Machine
end

