-- ==== Sys2Proof/Laws/Operands.lean ====
section
/-! SUPPORT. The operand forms in the terms a statement uses: a frame's bits and its raw value, the identifier as
the bits raw[16:1], and the fields of an encoded word. -/

namespace Sys2Proof.Machine

/-- The sum of a number's bits, weighted, is the number (30_encoding.md R72). -/
theorem sum_bits (raw : RawFrame) (n : Nat) :
    ((List.range n).map fun k => (raw.getLsbD k).toNat * 2 ^ k).sum = raw.toNat % 2 ^ n := by
  induction n with
  | zero => simp [Nat.mod_one]
  | succ n ih =>
    rw [List.range_succ, List.map_append, List.sum_append, ih, Nat.mod_pow_succ]
    simp [BitVec.getLsbD, Nat.testBit_eq_decide_div_mod_eq]
    rcases Nat.mod_two_eq_zero_or_one (raw.toNat / 2 ^ n) with h | h <;> simp [h]

theorem sum_range_list (g : Nat → Nat) (n : Nat) : ((List.range n).map g).sum = ∑ k ∈ Finset.range n, g k := by
  induction n with
  | zero => rfl
  | succ n ih => rw [List.range_succ, Finset.sum_range_succ, List.map_append, List.sum_append, ih]; simp

/-- A buffer whose k-th bit is raw[25-k] holds raw (30_encoding.md R72). -/
theorem frameRaw_of_bits (f : Vector Bool frameBits) (raw : RawFrame)
    (h : ∀ k (h : k < 26), f[k] = raw.getLsbD (25 - k)) : frameRaw f = raw := by
  have rev : ∀ g : Nat → Nat, ((List.range 26).map fun k => g (25 - k)).sum = ((List.range 26).map g).sum := by
    intro g
    rw [sum_range_list, sum_range_list]
    exact Finset.sum_range_reflect g 26
  have get : frameRaw f
      = BitVec.ofNat 26 (((List.range 26).map fun k => (raw.getLsbD (25 - k)).toNat * 2 ^ (25 - k)).sum) := by
    refine congrArg (BitVec.ofNat 26) (congrArg List.sum (List.map_congr_left fun k hk => ?_))
    have hk : k < 26 := List.mem_range.mp hk
    rw [Vector.getElem?_eq_getElem hk, Option.getD_some, h k hk]
  have sum := (rev fun k => (raw.getLsbD k).toNat * 2 ^ k).trans (sum_bits raw 26)
  apply BitVec.eq_of_toNat_eq
  rw [get]
  simp only [sum, BitVec.toNat_ofNat]
  have := raw.isLt
  omega

/-- `decode(raw) = raw[16:1]`, the second form of 42_decoder.md R140. -/
theorem decodeId_eq_extract (raw : RawFrame) : decodeId raw = raw.extractLsb' 1 16 := by
  apply BitVec.eq_of_toNat_eq
  rw [BitVec.extractLsb'_toNat]
  simp [decodeId, Nat.and_two_pow_sub_one_eq_mod _ 16, show (65535 : Nat) = 2 ^ 16 - 1 from rfl, -Nat.reducePow,
    -Nat.reduceSub]

end Sys2Proof.Machine

namespace Sys2Proof

theorem extract_opcode (a : BitVec 4) (b : BitVec 28) : (a ++ b).extractLsb' 28 4 = a := by
  ext k hk; rw [BitVec.getElem_extractLsb', BitVec.getLsbD_append]; simp [hk]

theorem extract_operand28 (a : BitVec 4) (b : BitVec 28) : (a ++ b).extractLsb' 0 28 = b := by
  ext k hk; rw [BitVec.getElem_extractLsb', BitVec.getLsbD_append]; simp [hk]

theorem extract_operand26 (a : BitVec 4) (b : BitVec 26) : (a ++ b.setWidth 28).extractLsb' 0 26 = b := by
  ext k hk; rw [BitVec.getElem_extractLsb', BitVec.getLsbD_append]; simp [hk, show k < 28 by omega]

theorem extract_zero2 (a : BitVec 4) (b : BitVec 26) : (a ++ b.setWidth 28).extractLsb' 26 2 = 0 := by
  ext k hk; rw [BitVec.getElem_extractLsb', BitVec.getLsbD_append]; simp; omega

theorem extract_operand16 (a : BitVec 4) (b : BitVec 16) : (a ++ b.setWidth 28).extractLsb' 0 16 = b := by
  ext k hk; rw [BitVec.getElem_extractLsb', BitVec.getLsbD_append]; simp [hk, show k < 28 by omega]

theorem extract_zero12 (a : BitVec 4) (b : BitVec 16) : (a ++ b.setWidth 28).extractLsb' 16 12 = 0 := by
  ext k hk; rw [BitVec.getElem_extractLsb', BitVec.getLsbD_append]; simp; omega

end Sys2Proof
end

