-- ==== Sys2Proof/Laws/PerInstr.lean ====
section
/-! SUPPORT. The statements made about every operation, one lemma per constructor of `Instr`. -/

namespace Sys2Proof.Laws.OpcodeField

/-- The word of an operation carries its opcode in op[31:28] and its operand in op[27:0] (30_encoding.md R90,
R91). -/
def Statement (i : Instr) : Prop :=
  opcodeOf (encode i) = i.opcode ∧ (encode i).extractLsb' 0 28 = i.operandField

theorem of_encode (i : Instr) : Statement i := ⟨extract_opcode _ _, extract_operand28 _ _⟩

theorem edgeD0 : Statement .edgeD0 := of_encode _

theorem edgeD1 : Statement .edgeD1 := of_encode _

theorem pollAbandon : Statement .pollAbandon := of_encode _

theorem pollComplete : Statement .pollComplete := of_encode _

theorem decode (raw : RawFrame) : Statement (.decode raw) := of_encode _

theorem dupFilter (id : CardId) : Statement (.dupFilter id) := of_encode _

theorem qPush (id : CardId) : Statement (.qPush id) := of_encode _

theorem qPop : Statement .qPop := of_encode _

theorem schedPoll : Statement .schedPoll := of_encode _

theorem tick (n : TickCount) : Statement (.tick n) := of_encode _

theorem reset : Statement .reset := of_encode _

end Sys2Proof.Laws.OpcodeField
end

