-- ==== Sys2Proof/Laws/Queue.lean ====
section
/-! SUPPORT. The invariant's queue part and the queue's content under an insertion, an eviction and a pop. -/

namespace Sys2Proof.Machine

/-- The invariant reads the configurations, the live mark, the frame count and the queue, and nothing else. -/
theorem Invariant.of_same {s t : State} (hs : Invariant s) (cfg : t.cfg = s.cfg) (next : t.cfgNext = s.cfgNext)
    (live : t.live = s.live) (count : t.fcnt.toNat ≤ 26) (q : t.q = s.q) (head : t.qHead = s.qHead)
    (tail : t.qTail = s.qTail) (occ : t.qCount = s.qCount) : Invariant t := by
  obtain ⟨h1, hn, h2, _, h4, h5, h6, h7, h8, h9, h10⟩ := hs
  exact ⟨cfg ▸ h1, next ▸ hn, live ▸ h2, count, by rw [head, cfg]; exact h4, by rw [tail, cfg]; exact h5,
    by rw [occ, cfg]; exact h6, by rw [head, tail, occ, cfg]; exact h7, by rw [q]; exact h8,
    by rw [q, cfg]; exact h9, by rw [q, tail, occ, cfg]; exact h10⟩

/-- Slots at different distances below N from the tail are different slots. -/
theorem slot_ne {t k n c : Nat} (hk : k < n) (hn : n < c) : (t + k) % c ≠ (t + n) % c := by
  intro h
  have h : k % c = n % c := Nat.ModEq.add_left_cancel' t h
  have hk' : k % c = k := Nat.mod_eq_of_lt (by omega)
  have hn' : n % c = n := Nat.mod_eq_of_lt hn
  omega

theorem slot_succ (t k c : Nat) : ((t + 1) % c + k) % c = (t + (k + 1)) % c := by
  rw [Nat.mod_add_mod]; congr 1; omega

/-- An insertion with room keeps the invariant. -/
theorem Invariant.afterInsert {s : State} (id : CardId) (hs : Invariant s) (room : s.qCount < s.cfg.cap) :
    Invariant (afterInsert id s) := by
  obtain ⟨h1, hn, h2, h3, h4, h5, h6, h7, h8, h9, h10⟩ := hs
  have pos : 0 < s.cfg.cap := by omega
  refine ⟨h1, hn, h2, h3, Nat.mod_lt _ pos, h5, room, ?_, Memory.write_wf _ _ h8, Memory.write_below _ h4 h9, ?_⟩
  · show (s.qHead + 1) % s.cfg.cap = (s.qTail + (s.qCount + 1)) % s.cfg.cap
    rw [h7, Nat.mod_add_mod]; congr 1
  · intro k hk
    show (Memory.read (Memory.write s.q s.qHead id) ((s.qTail + k) % s.cfg.cap)).isSome = true
    have hk : k < s.qCount + 1 := hk
    rcases Nat.lt_succ_iff_lt_or_eq.mp hk with hk | rfl
    · exact Memory.read_write_isSome _ _ (h10 k hk)
    · rw [← h7]; simp

/-- Taking the oldest entry keeps the invariant. -/
theorem Invariant.afterPop {s : State} (hs : Invariant s) (held : 0 < s.qCount) : Invariant (afterPop s) := by
  obtain ⟨h1, hn, h2, h3, h4, h5, h6, h7, h8, h9, h10⟩ := hs
  have pos : 0 < s.cfg.cap := by omega
  refine ⟨h1, hn, h2, h3, h4, Nat.mod_lt _ pos, ?_, ?_, h8, h9, ?_⟩
  · show s.qCount - 1 ≤ s.cfg.cap; omega
  · show s.qHead = ((s.qTail + 1) % s.cfg.cap + (s.qCount - 1)) % s.cfg.cap
    rw [slot_succ, h7]; congr 2; omega
  · intro k hk
    have hk : k < s.qCount - 1 := hk
    show (Memory.read s.q (((s.qTail + 1) % s.cfg.cap + k) % s.cfg.cap)).isSome = true
    rw [slot_succ]; exact h10 (k + 1) (by omega)

/-- Evicting the oldest entry keeps the invariant. -/
theorem Invariant.afterEvict {s : State} (old : CardId) (hs : Invariant s) (held : 0 < s.qCount) :
    Invariant (afterEvict old s) :=
  (hs.afterPop held).of_same rfl rfl rfl hs.count rfl rfl rfl rfl

/-- Under the invariant the oldest entry is one that a push has written: no free value is popped. -/
theorem Invariant.oldest_written {s : State} (hs : Invariant s) (held : 0 < s.qCount) :
    Memory.read s.q s.qTail = some (slotValue s s.qTail) := by
  have h := hs.written 0 held
  rw [Nat.add_zero, Nat.mod_eq_of_lt hs.tail] at h
  obtain ⟨v, hv⟩ := Option.isSome_iff_exists.mp h
  rw [hv, slotValue_written hv]

/-- The content is read from the configuration, the storage, the tail, the count and the counter of RESETs. -/
theorem content_congr {s t : State} (cfg : t.cfg = s.cfg) (q : t.q = s.q) (resets : t.resets = s.resets)
    (tail : t.qTail = s.qTail) (occ : t.qCount = s.qCount) : content t = content s := by
  simp only [content, cfg, slotValue_congr q resets, tail, occ]

@[simp] theorem content_length (s : State) : (content s).length = s.qCount := by simp [content]

/-- An insertion with room appends to the content. -/
theorem content_afterInsert {s : State} (id : CardId) (hs : Invariant s) (room : s.qCount < s.cfg.cap) :
    content (afterInsert id s) = content s ++ [id] := by
  show ((List.range (s.qCount + 1)).map fun k => slotValue (afterInsert id s) ((s.qTail + k) % s.cfg.cap))
    = content s ++ [id]
  rw [List.range_succ, List.map_append]
  congr 1
  · refine List.map_congr_left fun k hk => ?_
    have other : (s.qTail + k) % s.cfg.cap ≠ s.qHead := by
      rw [hs.cursors]; exact slot_ne (List.mem_range.mp hk) room
    simp only [slotValue, afterInsert, Memory.read_write_other _ _ other]
  · simp only [List.map_cons, List.map_nil, ← hs.cursors]
    simp [slotValue, afterInsert]

/-- Taking the oldest entry takes the head of the content. -/
theorem content_afterPop {s : State} (hs : Invariant s) (held : 0 < s.qCount) :
    content s = slotValue s s.qTail :: content (afterPop s) := by
  obtain ⟨n, hn⟩ : ∃ n, s.qCount = n + 1 := ⟨s.qCount - 1, by omega⟩
  have hpop : content (afterPop s) = (List.range n).map fun k => slotValue s ((s.qTail + (k + 1)) % s.cfg.cap) := by
    simp only [content, Sys2Proof.Machine.afterPop, hn, Nat.add_sub_cancel, adv, slot_succ]
    rfl
  rw [hpop]
  simp only [content, hn, List.range_succ_eq_map, List.map_cons, List.map_map, Nat.add_zero,
    Nat.mod_eq_of_lt hs.tail]
  rfl

theorem content_afterEvict {s : State} (old : CardId) (hs : Invariant s) (held : 0 < s.qCount) :
    content s = slotValue s s.qTail :: content (afterEvict old s) :=
  (content_afterPop hs held).trans (by rw [content_congr (s := afterPop s) (t := afterEvict old s)] <;> rfl)

theorem content_empty {s : State} (h : s.qCount = 0) : content s = [] := by simp [content, h]

/-- A push keeps the invariant. -/
theorem Invariant.pushed {id : CardId} {s t : State} {r : PushResult} (hs : Invariant s) (h : Pushed id s t r) :
    Invariant t := by
  cases h with
  | stored room head => exact hs.afterInsert id room
  | replaced full policy head tail =>
    have held : 0 < s.qCount := by omega
    refine (hs.afterEvict _ held).afterInsert id ?_
    show s.qCount - 1 < s.cfg.cap
    have := hs.occupancy; omega
  | rejected full policy => exact hs.of_same rfl rfl rfl hs.count rfl rfl rfl rfl

/-- Offering an identifier keeps the invariant. -/
theorem Invariant.offered {id : CardId} {s t : State} {d : DupVerdict} (hs : Invariant s) (h : Offered id s t d) :
    Invariant t := by
  cases h with
  | dropped => exact hs
  | passed fresh push =>
    exact (Invariant.of_same (t := noteForward id s) hs rfl rfl rfl hs.count rfl rfl rfl rfl).pushed push

/-- Under the invariant a push never faults. -/
theorem Invariant.push_total {s : State} (id : CardId) (hs : Invariant s) : ∃ t r, push id s = .ok (t, r) := by
  by_cases room : s.qCount < s.cfg.cap
  · exact ⟨_, _, push_with_room room hs.head⟩
  · cases hp : s.cfg.overflowPolicy with
    | dropOldest => exact ⟨_, _, push_evicting (by omega) hp hs.head hs.tail⟩
    | reject => exact ⟨_, _, push_rejected (by omega) hp⟩

/-- Under the invariant offering an identifier never faults. -/
theorem Invariant.offer_total {s : State} (id : CardId) (hs : Invariant s) : ∃ t d, offer id s = .ok (t, d) := by
  cases h : suppressed id s with
  | true => exact ⟨_, _, offer_suppressed h⟩
  | false =>
    obtain ⟨t, r, hp⟩ :=
      (Invariant.of_same (t := noteForward id s) hs rfl rfl rfl hs.count rfl rfl rfl rfl).push_total id
    exact ⟨_, _, offer_forwarded h hp⟩

/-- Under the invariant a pop never faults. -/
theorem Invariant.pop_total {s : State} (hs : Invariant s) : ∃ t r, pop s = .ok (t, r) := by
  by_cases held : s.qCount = 0
  · exact ⟨_, _, pop_empty held⟩
  · exact ⟨_, _, pop_entry (by omega) hs.tail⟩

end Sys2Proof.Machine
end

