-- ==== Sys2Proof/Laws/Runs.lean ====
section
/-! SUPPORT. Laws of runs over a list of operations: what no operation writes, what one microsecond does, and how a
premise about every interval of a list is checked on a list written out. -/

namespace Sys2Proof.Machine

/-- The loop body of `TICK` is one microsecond of the closed form (46_timebase_reset.md R201). -/
theorem microsecond_eq_passTime (s : State) : microsecond s = passTime 1 s := by
  have one : ∀ a : Age, (if a = 4294967295 then a else a + 1) = satAdd a 1 := by
    intro a
    apply BitVec.eq_of_toNat_eq
    rw [satAdd_toNat]
    have := a.isLt
    split
    · subst_vars; simp [ageMax]
    · rename_i hn
      have : a.toNat ≠ 4294967295 := fun h => hn (BitVec.eq_of_toNat_eq h)
      simp [ageMax, BitVec.toNat_add]; omega
  simp only [microsecond, passTime, one]

/-- An interval of a list is a piece of it from some place on. -/
theorem polledEvery_of_pieces {interval : Nat} {op : Instr} {ops : List Instr}
    (h : ∀ i ∈ List.range (ops.length + 1), ∀ n ∈ List.range (ops.length + 1),
      interval < elapsed ((ops.drop i).take n) → op ∈ (ops.drop i).take n) :
    PolledEvery interval op ops := by
  rintro seg ⟨pre, post, rfl⟩ hseg
  have piece : (((pre ++ seg ++ post).drop pre.length).take seg.length) = seg := by simp
  have := h pre.length (List.mem_range.mpr (by simp; try omega)) seg.length (List.mem_range.mpr (by simp; try omega))
  rw [piece] at this
  exact this hseg

end Sys2Proof.Machine
end

