-- ==== Sys2Proof/Tests/Slice0.lean ====
section
/-! SUPPORT. The session's own tests: the refusals of WellFormed, words written out from 30_encoding.md, vectors of
95_test_vectors.md (each named by its row), and for every statement with hypotheses a state that meets them. -/

namespace Sys2Proof.Tests

open Sys2Proof.Machine

/-! ### Small states -/

/-- The reset state at level UNIT. -/
def unitState : State := { State.reset with level := .unit }

/-- A state under a capacity and an overflow policy. -/
def queued (n : BitVec 17) (p : OverflowPolicy) (s : State) : State :=
  { s with cfg := { s.cfg with queueCap := n, overflowPolicy := p } }

/-- A UNIT state with N = 2 and the full content [1, 2]. -/
def fullPair (p : OverflowPolicy) : State :=
  { queued 2 p unitState with q := [(0, 1), (1, 2)], qCount := 2 }

/-- The same with one entry, [1], the head at N-1. -/
def halfPair : State := { queued 2 .dropOldest unitState with q := [(0, 1)], qHead := 1, qCount := 1 }

/-- A state with `fcnt` bits received and an age of the last one. -/
def received (n : BitVec 5) (age : Age) (s : State) : State := { s with fcnt := n, ageBit := age }

/-- A state that holds a full frame of a raw value, of some age. -/
def holding (raw : RawFrame) (age : Age) (s : State) : State :=
  { s with fbit := Vector.ofFn fun k => raw.getLsbD (25 - k), fcnt := 26, ageBit := age }

/-- A state in which an identifier was forwarded some time ago. -/
def forwarded (id : CardId) (age : Age) (s : State) : State := { s with dupValid := true, dupId := id, ageDup := age }

/-- The next state of an outcome, if it is one. -/
def after : Host.Outcome State Fault Refusal → Option State
  | .next s => some s
  | .fault _ => none
  | .refused _ => none

/-- The words of a run, each taken by one step. -/
def fed (ws : List OpWord) (s : State) : State := { s with stim := ws }

/-! ### WellFormed refuses an ill-formed term for each of its checks -/

theorem test_tick_zero_ill_formed : Instr.wellFormed (.tick 0) = false := by decide

theorem test_frame_spacing_zero_ill_formed : PseudoOp.wellFormed (.frame 0x41 0) = false := by decide

/-! ### Decoding of words written out from 30_encoding.md R99 and 95_test_vectors.md L2-9 -/

theorem test_decode_edges : (decodeOp 0x00000000).toOption = some .edgeD0
    ∧ (decodeOp 0x10000000).toOption = some .edgeD1 := by decide

theorem test_decode_polls : (decodeOp 0x20000000).toOption = some .pollAbandon
    ∧ (decodeOp 0x30000000).toOption = some .pollComplete ∧ (decodeOp 0x80000000).toOption = some .schedPoll := by
  decide

theorem test_decode_frame : (decodeOp 0b01000000000000000000000001000001).toOption = some (.decode 0x41)
    ∧ (decodeOp 0x43FFFFFF).toOption = some (.decode 0x3FFFFFF) := by decide

theorem test_decode_identifiers : (decodeOp 0b01010000000000000000000000100000).toOption = some (.dupFilter 0x0020)
    ∧ (decodeOp 0x6000FFFF).toOption = some (.qPush 0xFFFF) := by decide

theorem test_decode_pop_reset : (decodeOp 0x70000000).toOption = some .qPop
    ∧ (decodeOp 0xA0000000).toOption = some .reset := by decide

theorem test_decode_tick : (decodeOp 0x90004E21).toOption = some (.tick 20001)
    ∧ (decodeOp 0x9FFFFFFF).toOption = some (.tick 268435455) := by decide

theorem test_decode_invalid_fields : (decodeOp 0x00000001).toOption = none ∧ (decodeOp 0x4C000000).toOption = none
    ∧ (decodeOp 0x50010000).toOption = none ∧ (decodeOp 0x90000000).toOption = none := by decide

theorem test_decode_invalid_opcodes : (decodeOp 0xB0000000).toOption = none ∧ (decodeOp 0xC0000000).toOption = none
    ∧ (decodeOp 0xD0000000).toOption = none ∧ (decodeOp 0xE0000000).toOption = none
    ∧ (decodeOp 0xF0000000).toOption = none := by decide

/-- Bit 0 of the table's numbering is the word's least significant bit (30_encoding.md R96: one word of 32 bits). -/
theorem test_decodeTableWord : decodeTableWord 32 0x90004E21 = some (.tick 20001)
    ∧ decodeTableWord 32 0xB0000000 = none := by decide

/-! ### Trace lines and pseudo-operations: the examples of 30_encoding.md R97, R98 -/

theorem test_line_plain : parseLine ['E','D','G','E','_','D','1'] = some [.edgeD1] := by decide

theorem test_line_decimal : parseLine ['T','I','C','K',' ',' ','2','0','0','0',' ',';','x'] = some [.tick 2000] := by
  decide

theorem test_line_hexadecimal :
    parseLine ['Q','_','P','U','S','H',' ','0','x','0','0','2','0'] = some [.qPush 32] := by decide

theorem test_line_binary : parseLine ['D','E','C','O','D','E',' ','0','b','1','0','0','0','0','0','1']
    = some [.decode 0x41] := by decide

theorem test_line_tick_zero : parseLine ['T','I','C','K',' ','0'] = none
    ∧ parseLine ['W','A','I','T',' ','0'] = some [] := by decide

/-- `FRAME raw, s`: 26 edges and 25 ticks, the first edge of raw[25] and the last of raw[0]. -/
theorem test_frame_expansion :
    ((PseudoOp.frame 0x41 2000).expand.length = 51
      ∧ (PseudoOp.frame 0x41 2000).expand.take 2 = [.edgeD0, .tick 2000])
    ∧ (PseudoOp.frame 0x41 2000).expand.drop 37 = [.tick 2000, .edgeD1, .tick 2000, .edgeD0, .tick 2000, .edgeD0,
        .tick 2000, .edgeD0, .tick 2000, .edgeD0, .tick 2000, .edgeD0, .tick 2000, .edgeD1] := by decide

/-! ### Vectors of 95_test_vectors.md, L1 and L2 -/

/-- E1: the first edge after reset. -/
theorem test_edgeD0_first :
    (after (exec .edgeD0 State.reset)).map (fun t => (t.fcnt, t.fbit[0], t.ageBit, t.ageEdge)) = some (1, false, 0, 0)
    := by decide

/-- The example of R100: the fourth bit, on D0, over a buffer bit that was 1. -/
theorem test_edgeD0_fourth :
    (after (exec .edgeD0 { State.reset with fcnt := 3, ageEdge := 1500, ageBit := 9,
                                            fbit := Vector.replicate 26 true })).map
      (fun t => (t.fcnt, t.fbit[3], t.ageBit, t.ageEdge)) = some (4, false, 0, 0) := by decide

/-- E2 and E3: 200 microseconds are rejected and 201 accepted. -/
theorem test_edgeD1_dead_time :
    after (exec .edgeD1 { State.reset with fcnt := 1, ageEdge := 200 })
      = some { State.reset with fcnt := 1, ageEdge := 200 }
    ∧ (after (exec .edgeD1 { State.reset with fcnt := 1, ageEdge := 201 })).map (fun t => (t.fcnt, t.fbit[1]))
      = some (2, true) := by decide

/-- E8: an edge while FULL writes `age_edge` only. -/
theorem test_edgeD1_full :
    after (exec .edgeD1 { State.reset with fcnt := 26, ageBit := 10000, ageEdge := 300 })
      = some { State.reset with fcnt := 26, ageBit := 10000, ageEdge := 0 } := by decide

/-- F2: a stale partial frame. -/
theorem test_pollAbandon_stale :
    after (exec .pollAbandon (received 10 200001 State.reset))
      = some { received 0 200001 State.reset with ev := [⟨.captureError, none⟩] } := by decide

/-- F4: a full frame is never abandoned. -/
theorem test_pollAbandon_full :
    after (exec .pollAbandon (received 26 300000 State.reset)) = some (received 26 300000 State.reset) := by decide

/-- F7: raw 0x41 is completed, and 32 is pushed. -/
theorem test_pollComplete_pushes :
    (after (exec .pollComplete (holding 0x41 20001 State.reset))).map
      (fun t => (t.fcnt, t.dupId, t.ageDup, content t, t.ev))
      = some (0, 32, 0, [32], [⟨.captureSuccess, some 32⟩]) := by decide

/-- F9: a repeat within the window is consumed and dropped. -/
theorem test_pollComplete_repeat :
    (after (exec .pollComplete (forwarded 32 170001 (holding 0x41 20001 State.reset)))).map
      (fun t => (t.fcnt, t.ageDup, content t, t.ev)) = some (0, 170001, [], []) := by decide

/-- X9: the source's own example, with the corrected value (42_decoder.md R144). -/
theorem test_decode_source_example :
    (after (exec (.decode 0x1005E00) unitState)).map State.res = some [.value 0x2F00] := by decide

/-- X4, X5, X6 and X10: the discarded bits, every identifier bit, and enc(0x12, 0xBEEF, 1, 0). -/
theorem test_decode_fields : decodeId 0x2000000 = 0 ∧ decodeId 0x001FFFE = 0xFFFF ∧ decodeId 0x0020000 = 0
    ∧ decodeId 0x0257DDF = 0xBEEF := by decide

/-- U2 and U3: 299999 microseconds suppress, 300000 forward. -/
theorem test_dupFilter_window :
    after (exec (.dupFilter 7) (forwarded 7 299999 unitState))
      = some { forwarded 7 299999 unitState with res := [.suppress] }
    ∧ (after (exec (.dupFilter 7) (forwarded 7 300000 unitState))).map (fun t => (t.res, t.ageDup, content t))
      = some ([.forward], 0, [7]) := by decide

/-- U8: under REJECT a lost identifier still becomes the last forwarded one (43_dup_filter.md R151). -/
theorem test_dupFilter_rejected :
    (after (exec (.dupFilter 8) (forwarded 7 0 (fullPair .reject)))).map
      (fun t => (t.res, t.dupId, t.ev, content t)) = some ([.forward], 8, [⟨.queueOverflow, some 8⟩], [1, 2]) := by
  decide

/-- Q2: a push into the empty queue. -/
theorem test_qPush_empty :
    (after (exec (.qPush 0xFFFF) unitState)).map (fun t => (t.res, content t, t.qHead, t.ev))
      = some ([.success], [0xFFFF], 1, [⟨.captureSuccess, some 0xFFFF⟩]) := by decide

/-- Q3's last push: N = 3, content [2, 3, 4], the tail and the head at slot 1. -/
theorem test_qPush_evicts :
    (after (exec (.qPush 5) { queued 3 .dropOldest unitState with
        q := [(0, 4), (1, 2), (2, 3)], qHead := 1, qTail := 1, qCount := 3 })).map
      (fun t => (content t, t.qHead, t.qTail, t.qCount, t.ev))
      = some ([3, 4, 5], 2, 2, 3, [⟨.evict, some 2⟩, ⟨.captureSuccess, some 5⟩]) := by decide

/-- Q1: a pop of the empty queue; and a pop of a slot that no push has written gives the free value of U5. -/
theorem test_qPop_empty : after (exec .qPop unitState) = some { unitState with res := [.empty] }
    ∧ (after (exec .qPop { unitState with qCount := 1, qTail := 5 })).map State.res
      = some [.value (Config.unwrittenSlot 0 5)] := ⟨by decide, rfl⟩

/-- A pop at the last slot: the tail wraps to 0 (the corner case of R168). -/
theorem test_qPop_wraps :
    (after (exec .qPop { fullPair .reject with qHead := 1, qTail := 1 })).map
      (fun t => (t.res, t.qTail, content t)) = some ([.value 2], 0, [1]) := by decide

/-- S1 and S2: 9999999 microseconds make no attempt, 10000000 send "32" CR LF. -/
theorem test_schedPoll_cadence :
    (after (exec .schedPoll { State.reset with ageTx := 9999999, q := [(0, 32)], qHead := 1, qCount := 1 })).map
      (fun t => (t.ageTx, t.qCount, t.out)) = some (9999999, 1, [])
    ∧ (after (exec .schedPoll { State.reset with ageTx := 10000000, q := [(0, 32)], qHead := 1, qCount := 1 })).map
      (fun t => (t.ageTx, content t, t.out, t.ev))
      = some (0, [], [⟨32, [0x33, 0x32, 0x0D, 0x0A]⟩], [⟨.transmitSuccess, some 32⟩]) := by decide

/-- S3: an attempt on the empty queue restarts the cadence. -/
theorem test_schedPoll_empty :
    after (exec .schedPoll { State.reset with ageTx := 10000000 }) = some State.reset := by decide

/-- T1 and T2: 19999 + 2, and saturation. -/
theorem test_tick : (after (exec (.tick 2) { State.reset with ageBit := 19999 })).map
    (fun t => (t.ageBit, t.ageEdge, t.ageTx, t.now)) = some (20001, 4294967295, 2, 2) := by decide

/-- T3: the longest tick. -/
theorem test_tick_longest : (after (exec (.tick 268435455) State.reset)).map
    (fun t => (t.now, t.ageBit, t.ageTx, t.ageEdge, t.ageDup))
    = some (268435455, 268435455, 268435455, 4294967295, 4294967295) := by decide

/-- T5: reset in the middle of things keeps the traces, the time and `REFUSED`. -/
theorem test_reset :
    after (exec .reset { fullPair .reject with fcnt := 12, dupValid := true, ageTx := 5, ageEdge := 3, now := 9,
                                               refused := true, ev := [⟨.captureError, none⟩] })
      = some { queued 2 .reject unitState with
                 now := 9, refused := true, ev := [⟨.captureError, none⟩], resets := 1 } := by decide

/-- The messages of L2-8. -/
theorem test_messages : message 0 = [0x30, 0x0D, 0x0A] ∧ message 7 = [0x37, 0x0D, 0x0A]
    ∧ message 12032 = [0x31, 0x32, 0x30, 0x33, 0x32, 0x0D, 0x0A]
    ∧ message 65535 = [0x36, 0x35, 0x35, 0x33, 0x35, 0x0D, 0x0A] := by decide

/-- The default configuration is legal, and its bounds are where 00_scope.md R10 puts them. -/
theorem test_legal : cfgLegal defaultCfg = true ∧ cfgLegal { defaultCfg with queueCap := 65536 } = true
    ∧ cfgLegal { defaultCfg with queueCap := 65537 } = false ∧ cfgLegal { defaultCfg with queueCap := 0 } = false
    ∧ cfgLegal { defaultCfg with gapUs := 4294967294 } = true := by decide

theorem test_reset_memory_canonical : Memory.wf State.reset.q = true := by decide

/-- RESET under the configuration its inputs hold at the release (R240), and the next reset under the same. -/
theorem test_reset_samples :
    (after (runOps [.reset, .reset] { State.reset with cfgNext := [{ defaultCfg with gapUs := 7 }] })).map
      (fun t => (t.cfg.gapUs, t.cfg.deadTimeUs, t.cfgNext)) = some (7, 200, []) := by decide

/-! ### Steps -/

/-- A word placed for the next step is the operation that step runs. -/
theorem test_step_runs_placed_word :
    (after (step (State.reset.withFetchWord 32 0x10000000))).map (fun t => (t.fcnt, t.fbit[0], t.stim))
      = some (1, true, []) := by decide

/-- 95_test_vectors.md P5: an INVALID word and a unit-only one each set `REFUSED` and nothing else. -/
theorem test_step_refused_words :
    after (step (fed [0xB0000000, 0x40000041] State.reset)) = some { fed [0x40000041] State.reset with refused := true }
    ∧ after (step (fed [0x40000041] State.reset)) = some { State.reset with refused := true } := by decide

/-! ### For every statement with hypotheses, concrete states and operands that meet them -/

theorem witness_DecodeOfEncode : Instr.wellFormed (.tick 1) = true ∧ Instr.wellFormed (.tick 268435455) = true
    ∧ Instr.wellFormed (.decode 0x3FFFFFF) = true := by decide

theorem witness_EncodeOfDecode : decodeOp 0x90000001 = .ok (.tick 1) ∧ decodeOp 0x43FFFFFF = .ok (.decode 0x3FFFFFF)
    := ⟨rfl, rfl⟩

/-- A live state with any operation, and one that no RESET has set with `RESET`. -/
theorem witness_StepRunsTheDecodedOperation :
    let s := fed [0x10000000] State.reset
    let u := fed [0xA0000000] { State.reset with live := false }
    (s.stim = 0x10000000 :: [] ∧ decodeOp 0x10000000 = .ok .edgeD1 ∧ s.live = true ∧ cfgLegal s.cfg = true)
    ∧ u.stim = 0xA0000000 :: [] ∧ decodeOp 0xA0000000 = .ok .reset ∧ cfgLegal (cfgAtRelease u) = true :=
  ⟨⟨rfl, rfl, rfl, by decide⟩, rfl, rfl, by decide⟩

/-- One word for each cause, at the least value of its field. -/
theorem witness_InvalidWordOnlySetsRefused :
    (State.reset.live = true ∧ cfgLegal State.reset.cfg = true)
    ∧ InvalidFields 0xB0000000 ∧ InvalidFields 0x00000001 ∧ InvalidFields 0x44000000 ∧ InvalidFields 0x50010000
    ∧ InvalidFields 0x60010000 ∧ InvalidFields 0x90000000 :=
  ⟨by decide, by simp [InvalidFields], by simp [InvalidFields], by simp [InvalidFields], by simp [InvalidFields],
    by simp [InvalidFields], by simp [InvalidFields]⟩

theorem witness_NoPendingWordWaits :
    State.reset.stim = [] ∧ State.reset.live = true ∧ cfgLegal State.reset.cfg = true := by decide

/-- A state that no RESET has set, with no word, with a word one bit away from RESET's, and with RESET's. -/
theorem witness_OnlyResetStepsBeforeFirstReset :
    let s := fun w => fed [w] { State.reset with live := false }
    (({ State.reset with live := false } : State).stim = [] ∧ ({ State.reset with live := false } : State).live = false)
    ∧ ((s 0xA0000001).stim = [0xA0000001] ∧ (s 0xA0000001).live = false ∧ (0xA0000001 : OpWord) ≠ 0xA0000000)
    ∧ (s 0xA0000000).stim = [0xA0000000] ∧ cfgLegal (cfgAtRelease (s 0xA0000000)) = true
    ∧ (s 0xA0000000).live = false := by decide

/-- A state for any configuration, in force or to be sampled; and both ends of the ranges of N and of a threshold. -/
theorem witness_IllegalConfigurationHasNoRun :
    let s := fun c => fed [0x10000000] { State.reset with cfg := c }
    let r := fun c => fed [0xA0000000] { State.reset with cfgNext := [c] }
    (State.reset.stim = [] ∧ State.reset.live = true ∧ ¬ CfgInRange { State.reset.cfg with queueCap := 0 })
    ∧ (∀ c, (s c).stim = 0x10000000 :: [] ∧ (s c).live = true ∧ (s c).cfg = c)
    ∧ (∀ c, (r c).stim = 0xA0000000 :: [] ∧ cfgAtRelease (r c) = c)
    ∧ (CfgInRange { defaultCfg with gapUs := 4294967294 } ∧ ¬ CfgInRange { defaultCfg with gapUs := 4294967295 })
    ∧ CfgInRange { defaultCfg with queueCap := 1 } ∧ ¬ CfgInRange { defaultCfg with queueCap := 0 }
    ∧ CfgInRange { defaultCfg with queueCap := 65536 } ∧ ¬ CfgInRange { defaultCfg with queueCap := 65537 } :=
  ⟨by unfold CfgInRange; decide, fun _ => ⟨rfl, rfl, rfl⟩, fun _ => ⟨rfl, rfl⟩, by unfold CfgInRange; decide⟩

/-- Each line; the filter's two sides at its threshold; the filter off; the frame counts 25 and 26. -/
theorem witness_EdgeFilterAndAppend :
    let s := fun (n : BitVec 5) (age : Age) => { received n 0 State.reset with ageEdge := age }
    let off := fun n => { s n 0 with cfg := { defaultCfg with deadtimeEn := false } }
    ((s 3 200).cfg.deadtimeEn = true ∧ (s 3 200).ageEdge ≤ (s 3 200).cfg.deadTimeUs)
    ∧ ((s 25 201).cfg.deadTimeUs < (s 25 201).ageEdge ∧ (s 25 201).fcnt < 26)
    ∧ ((s 26 201).cfg.deadTimeUs < (s 26 201).ageEdge ∧ (s 26 201).fcnt = 26)
    ∧ ((off 25).cfg.deadtimeEn = false ∧ (off 25).fcnt < 26) ∧ (off 26).cfg.deadtimeEn = false ∧ (off 26).fcnt = 26
    := by decide

/-- A burst on both lines that lasts exactly the dead time. -/
theorem witness_BouncesWithinDeadTimeChangeNothing :
    let s := { State.reset with ageEdge := 0 }
    let ops : List Instr := [.edgeD1, .tick 200, .edgeD0]
    s.cfg.deadtimeEn = true ∧ (∀ i ∈ ops, i = .edgeD0 ∨ i = .edgeD1 ∨ ∃ n, i = .tick n)
    ∧ s.ageEdge.toNat + elapsed ops ≤ s.cfg.deadTimeUs.toNat := ⟨by decide, by simp, by decide⟩

/-- Other operations, for exactly the dead time. -/
theorem witness_AcceptedEdgesAreSeparated :
    let s := { State.reset with ageEdge := 0 }
    let ops : List Instr := [.tick 200, .pollAbandon]
    s.cfg.deadtimeEn = true ∧ .reset ∉ ops ∧ s.ageEdge.toNat + elapsed ops ≤ s.cfg.deadTimeUs.toNat
    ∧ (after (runOps ops s)).isSome = true := by decide

theorem witness_FirstEdgeAfterResetStartsAFrame :
    cfgLegal (cfgAtRelease (received 12 5 State.reset)) = true
    ∧ exec .reset (received 12 5 State.reset) = .next { State.reset with resets := 1 } := ⟨by decide, rfl⟩

/-- The least spacing the filter accepts, and the least of all with the filter off. -/
theorem witness_FrameIsCapturedMostSignificantFirst :
    let s := { State.reset with ageEdge := 201 }
    let off := { State.reset with cfg := { defaultCfg with deadtimeEn := false } }
    ((201 : TickCount) ≠ 0 ∧ s.fcnt = 0 ∧ s.cfg.deadTimeUs < s.ageEdge
      ∧ s.cfg.deadTimeUs.toNat < (201 : TickCount).toNat)
    ∧ (1 : TickCount) ≠ 0 ∧ off.fcnt = 0 ∧ off.cfg.deadtimeEn = false := by decide

/-- Both ends of FILLING just past the timeout; EMPTY, FULL, and FILLING at the timeout. -/
theorem witness_PollAbandonDropsStaleFrame :
    (∀ n ∈ [(1 : BitVec 5), 25], 0 < (received n 200001 State.reset).fcnt ∧ (received n 200001 State.reset).fcnt < 26
      ∧ (received n 200001 State.reset).cfg.partialTimeoutUs < (received n 200001 State.reset).ageBit)
    ∧ (received 0 4294967295 State.reset).fcnt = 0 ∧ (received 26 4294967295 State.reset).fcnt = 26
    ∧ ((received 25 200000 State.reset).fcnt < 26
      ∧ (received 25 200000 State.reset).ageBit ≤ (received 25 200000 State.reset).cfg.partialTimeoutUs) := by decide

/-- A partial frame of any age, and a full one at the gap. -/
theorem witness_PollCompleteWaitsForSettledFrame :
    (received 25 4294967295 State.reset).fcnt < 26
    ∧ (received 26 20000 State.reset).fcnt = 26
    ∧ (received 26 20000 State.reset).ageBit ≤ (received 26 20000 State.reset).cfg.gapUs := by decide

/-- The buffer of `holding raw` holds raw, for the five statements about a settled frame. -/
theorem holding_bits (raw : RawFrame) (age : Age) (s : State) :
    ∀ k (h : k < 26), (holding raw age s).fbit[k] = raw.getLsbD (25 - k) := by
  intro k h; simp [holding]

/-- The last microsecond of the window. -/
theorem witness_PollCompleteDropsDuplicate :
    let s := forwarded 32 299999 (holding 0x41 20001 State.reset)
    (∀ k (h : k < 26), s.fbit[k] = (0x41 : RawFrame).getLsbD (25 - k))
    ∧ s.fcnt = 26 ∧ s.cfg.gapUs < s.ageBit ∧ s.dupValid = true ∧ s.dupId = (0x41 : RawFrame).extractLsb' 1 16
    ∧ s.ageDup < s.cfg.dupWindowUs :=
  ⟨holding_bits 0x41 20001 State.reset, by decide, by decide, by decide, by decide, by decide⟩

/-- No earlier identifier, another one, and the same one at the end of the window. -/
theorem witness_PollCompleteEnqueues :
    let s := holding 0x41 20001 halfPair
    (∀ k (h : k < 26), s.fbit[k] = (0x41 : RawFrame).getLsbD (25 - k))
    ∧ 32 = (0x41 : RawFrame).extractLsb' 1 16 ∧ s.fcnt = 26 ∧ s.cfg.gapUs < s.ageBit ∧ s.qCount < s.cfg.cap
    ∧ s.qHead < s.cfg.cap ∧ s.dupValid = false ∧ (forwarded 31 0 s).dupId ≠ 32
    ∧ (forwarded 32 300000 s).cfg.dupWindowUs ≤ (forwarded 32 300000 s).ageDup :=
  ⟨holding_bits 0x41 20001 halfPair, by decide, by decide, by decide, by decide, by decide, by decide, by decide,
    by decide⟩

theorem witness_PollCompleteEvictsOldest :
    let s := holding 0x41 20001 (fullPair .dropOldest)
    (∀ k (h : k < 26), s.fbit[k] = (0x41 : RawFrame).getLsbD (25 - k))
    ∧ s.fcnt = 26 ∧ s.cfg.gapUs < s.ageBit ∧ s.dupValid = false ∧ s.cfg.overflowPolicy = .dropOldest
    ∧ s.qCount = s.cfg.cap ∧ s.qHead < s.cfg.cap ∧ s.qTail < s.cfg.cap :=
  ⟨holding_bits 0x41 20001 (fullPair .dropOldest), by decide, by decide, by decide, by decide, by decide, by decide,
    by decide⟩

theorem witness_PollCompleteRejectedAtFullQueue :
    let s := holding 0x41 20001 (fullPair .reject)
    (∀ k (h : k < 26), s.fbit[k] = (0x41 : RawFrame).getLsbD (25 - k))
    ∧ s.fcnt = 26 ∧ s.cfg.gapUs < s.ageBit ∧ s.dupValid = false ∧ s.cfg.overflowPolicy = .reject
    ∧ s.qCount = s.cfg.cap :=
  ⟨holding_bits 0x41 20001 (fullPair .reject), by decide, by decide, by decide, by decide, by decide⟩

/-- For FrameCountTransitions, OnlyTickTakesTime, AgentsWriteOnlyTheirState and EventsOfEachOperation, which hold of any
next state of `exec`: an operation of each agent that has its effect. -/
theorem witness_next_states :
    (after (exec .edgeD1 (received 25 0 State.reset))).map State.fcnt = some 26
    ∧ (after (exec .pollAbandon (received 25 200001 State.reset))).map State.fcnt = some 0
    ∧ (after (exec .pollComplete (holding 0x41 20001 State.reset))).map State.fcnt = some 0
    ∧ (after (exec .schedPoll { fullPair .reject with ageTx := 10000000 })).map State.qCount = some 1
    ∧ (after (exec (.tick 5) State.reset)).map State.now = some 5
    ∧ (after (exec .reset (received 3 0 State.reset))).map State.fcnt = some 0 := by decide

theorem witness_FrameCountAbove26Faults :
    26 < (received 27 0 State.reset).fcnt ∧ 26 < (received 31 0 State.reset).fcnt
    ∧ (received 27 0 State.reset).cfg.deadTimeUs < (received 27 0 State.reset).ageEdge := by decide

theorem witness_DecodeGivesIdentifierBits : unitState.level = .unit := rfl

theorem witness_DupFilterSuppresses :
    (forwarded 7 299999 unitState).dupValid = true ∧ (forwarded 7 299999 unitState).dupId = 7
    ∧ (forwarded 7 299999 unitState).ageDup < (forwarded 7 299999 unitState).cfg.dupWindowUs
    ∧ (forwarded 7 299999 unitState).level = .unit := by decide

/-- The three grounds to forward, and the three states of the queue. -/
theorem witness_DupFilterForwards :
    (unitState.dupValid = false ∧ (forwarded 6 0 unitState).dupId ≠ 7
      ∧ (forwarded 7 300000 unitState).cfg.dupWindowUs ≤ (forwarded 7 300000 unitState).ageDup)
    ∧ (halfPair.level = .unit ∧ halfPair.qCount < halfPair.cfg.cap ∧ halfPair.qHead < halfPair.cfg.cap)
    ∧ ∀ p ∈ [OverflowPolicy.dropOldest, .reject], (fullPair p).level = .unit ∧ (fullPair p).cfg.overflowPolicy = p
        ∧ (fullPair p).qCount = (fullPair p).cfg.cap ∧ (fullPair p).qHead < (fullPair p).cfg.cap
        ∧ (fullPair p).qTail < (fullPair p).cfg.cap := by decide

/-- Sightings up to the last microsecond of the window. -/
theorem witness_RepeatSightingsDoNotRestartWindow :
    let s := forwarded 9 0 unitState
    let ops : List Instr := [.tick 100000, .dupFilter 9, .tick 199999, .dupFilter 9]
    s.level = .unit ∧ s.dupValid = true ∧ s.dupId = 9 ∧ (∀ i ∈ ops, i = .dupFilter 9 ∨ ∃ n, i = .tick n)
    ∧ s.ageDup.toNat + elapsed ops < s.cfg.dupWindowUs.toNat :=
  ⟨rfl, rfl, rfl, by simp, by decide⟩

/-- The last forwarded identifier at once again, offered by either operation. -/
theorem witness_ZeroWindowSuppressesNothing :
    let s := forwarded 32 0 (holding 0x41 20001 unitState)
    let z : State := { s with cfg := { s.cfg with dupWindowUs := 0 } }
    z.cfg.dupWindowUs = 0 ∧ z.level = .unit ∧ (after (exec (.dupFilter 32) z)).isSome = true
    ∧ z.fcnt = 26 ∧ z.cfg.gapUs < z.ageBit ∧ (after (exec .pollComplete z)).isSome = true := by decide

theorem witness_QPushStoresEvictsOrRejects :
    (halfPair.level = .unit ∧ halfPair.qCount < halfPair.cfg.cap ∧ halfPair.qHead + 1 = halfPair.cfg.cap)
    ∧ ∀ p ∈ [OverflowPolicy.dropOldest, .reject], (fullPair p).level = .unit ∧ (fullPair p).cfg.overflowPolicy = p
        ∧ (fullPair p).qCount = (fullPair p).cfg.cap ∧ (fullPair p).qHead < (fullPair p).cfg.cap
        ∧ (fullPair p).qTail < (fullPair p).cfg.cap := by decide

theorem witness_QPopReturnsOldest :
    (unitState.level = .unit ∧ unitState.qCount = 0)
    ∧ halfPair.level = .unit ∧ halfPair.qCount = 1 ∧ halfPair.qTail < halfPair.cfg.cap := by decide

theorem witness_OnlyTheHeadSlotIsWritten :
    (Instr.qPush 5) ≠ .reset ∧ (after (exec (.qPush 5) halfPair)).map State.qCount = some 2 := by decide

/-- A full queue has the invariant. -/
theorem invariant_fullPair (p : OverflowPolicy) : Invariant (fullPair p) := by
  cases p <;> constructor <;> decide

/-- An empty queue of two slots has the invariant. -/
theorem invariant_emptyPair (p : OverflowPolicy) : Invariant (queued 2 p unitState) := by
  cases p <;> constructor <;> decide

/-- N + 1 pushes from an empty queue, under either policy. -/
theorem witness_PushesKeepNewestOrFirst (p : OverflowPolicy) :
    Invariant (queued 2 p unitState) ∧ (queued 2 p unitState).level = .unit ∧ (queued 2 p unitState).qCount = 0
    ∧ (queued 2 p unitState).cfg.overflowPolicy = p
    ∧ (after (runOps ([1, 2, 3].map Instr.qPush) (queued 2 p unitState))).isSome = true :=
  ⟨invariant_emptyPair p, rfl, rfl, rfl, by cases p <;> decide⟩

theorem witness_PopsReturnContentInOrder :
    Invariant (fullPair .reject) ∧ (fullPair .reject).level = .unit := ⟨invariant_fullPair .reject, rfl⟩

theorem witness_PushAndPopInEitherOrder :
    Invariant (fullPair .dropOldest) ∧ (fullPair .dropOldest).level = .unit
    ∧ (fullPair .dropOldest).cfg.overflowPolicy = .dropOldest
    ∧ (fullPair .dropOldest).qCount = (fullPair .dropOldest).cfg.cap ∧ content (fullPair .dropOldest) = 1 :: 2 :: [] :=
  ⟨invariant_fullPair .dropOldest, rfl, rfl, by decide, by decide⟩

/-- The least bad index for the head and for the tail, and a listed slot's neighbour. -/
theorem witness_BadSlotFaults :
    let head := { halfPair with qHead := 2 }
    let tail := { halfPair with qTail := 2 }
    let blank := { halfPair with qTail := 1 }
    (head.level = .unit ∧ head.qCount < head.cfg.cap ∧ head.cfg.cap ≤ head.qHead)
    ∧ (tail.level = .unit ∧ 0 < tail.qCount ∧ tail.cfg.cap ≤ tail.qTail)
    ∧ blank.level = .unit ∧ 0 < blank.qCount ∧ blank.qTail < blank.cfg.cap
    ∧ Memory.read blank.q blank.qTail = none := by decide

/-- Both sides of the cadence, with the queue empty and with one entry. -/
theorem witness_SchedPollSendsAtCadence :
    let s := fun age => { State.reset with ageTx := age }
    let one := { halfPair with ageTx := 10000000 }
    (s 9999999).ageTx < (s 9999999).cfg.cadenceUs
    ∧ ((s 10000000).cfg.cadenceUs ≤ (s 10000000).ageTx ∧ (s 10000000).qCount = 0)
    ∧ (1 = slotValue one one.qTail ∧ one.cfg.cadenceUs ≤ one.ageTx ∧ 0 < one.qCount ∧ one.qTail < one.cfg.cap) := by
  decide

/-- One microsecond less than the cadence, with a reset in between that samples another configuration, and without,
with something to send. -/
theorem witness_SendsAreACadenceApart :
    let ops : List Instr := [.tick 9000000, .schedPoll, .tick 999999, .schedPoll]
    let s := { State.reset with cfgNext := [{ defaultCfg with queueCap := 2 }] }
    ((∀ c ∈ s.cfg :: s.cfgNext, s.ageTx.toNat + elapsed (.reset :: ops) < c.cadenceUs.toNat)
      ∧ (after (runOps (.reset :: ops) s)).isSome = true)
    ∧ .reset ∉ ops ∧ halfPair.ageTx.toNat + elapsed ops < halfPair.cfg.cadenceUs.toNat
    ∧ (after (runOps ops halfPair)).isSome = true := by decide

theorem witness_UnitOperationsRefusedAtBlock :
    State.reset.level = .block ∧ ∀ i ∈ [Instr.decode 1, .dupFilter 1, .qPush 1, .qPop], i.unitOnly = true := by decide

theorem witness_ResetSamplesTheConfiguration :
    ({ State.reset with cfgNext := [{ defaultCfg with queueCap := 1 }, defaultCfg] } : State).cfgNext
      = { defaultCfg with queueCap := 1 } :: [defaultCfg] := rfl

/-- For RefusedIsNeverCleared, ConfigurationIsStatic and TracesOnlyGrow, which hold of any next state of `step`. -/
theorem witness_step_next :
    (after (step (fed [0x10000000] { State.reset with refused := true }))).map (fun t => (t.refused, t.fcnt))
      = some (true, 1) := by decide

theorem witness_ResetEstablishesInvariant :
    let s := { received 31 0 State.reset with qTail := 999, live := false, cfgNext := [defaultCfg, defaultCfg] }
    cfgLegal (cfgAtRelease s) = true ∧ (∀ c ∈ s.cfgNext, cfgLegal c = true)
    ∧ (after (exec .reset s)).map State.qTail = some 0 := by decide

/-- A state with the invariant whose next word evicts. -/
theorem witness_InvariantKeptByEveryStep :
    Invariant (fed [0x60000005] (fullPair .dropOldest))
    ∧ (after (step (fed [0x60000005] (fullPair .dropOldest)))).map content = some [2, 5] :=
  ⟨(invariant_fullPair .dropOldest).of_same rfl rfl rfl (by decide) rfl rfl rfl rfl, by decide⟩

theorem witness_NoConditionStopsTheBlock : Invariant (fed [0xFFFFFFFF] (fullPair .reject)) :=
  (invariant_fullPair .reject).of_same rfl rfl rfl (by decide) rfl rfl rfl rfl

/-- The full pair with the events that filled it. -/
def reported : State := { fullPair .dropOldest with ev := [⟨.captureSuccess, some 1⟩, ⟨.captureSuccess, some 2⟩] }

theorem witness_QueueOrderKeptByEveryStep :
    Invariant (fed [0x60000005] reported) ∧ OrderKept (fed [0x60000005] reported)
    ∧ (after (step (fed [0x60000005] reported))).isSome = true :=
  ⟨(invariant_fullPair .dropOldest).of_same rfl rfl rfl (by decide) rfl rfl rfl rfl, by unfold OrderKept; decide,
    by decide⟩

theorem witness_NoIdentifierLeavesUnreported :
    Invariant reported ∧ Instr.qPush 5 ≠ .reset ∧ Instr.qPush 5 ≠ .qPop
    ∧ capturedIds reported.ev = departedIds reported.ev ++ content reported
    ∧ (after (exec (.qPush 5) reported)).isSome = true :=
  ⟨(invariant_fullPair .dropOldest).of_same rfl rfl rfl (by decide) rfl rfl rfl rfl, by decide, by decide, by decide,
    by decide⟩

theorem witness_OutputReportedKeptByEveryStep :
    OutputReported (fed [0x80000000] { fullPair .reject with ageTx := 10000000 })
    ∧ (after (step (fed [0x80000000] { fullPair .reject with ageTx := 10000000 }))).map (fun t => t.out.length)
      = some 1 := by unfold OutputReported; decide

/-! For liveness: thresholds of 2 microseconds, and every poll after every microsecond: exactly once in 1. -/

/-- A configuration with thresholds of 2 microseconds. -/
def brisk (s : State) : State := { s with cfg := { s.cfg with gapUs := 2, partialTimeoutUs := 2, cadenceUs := 2 } }

/-- Six microseconds, the polls after each. -/
def polls : List Instr :=
  (List.replicate 6 [Instr.tick 1, .pollAbandon, .pollComplete, .schedPoll]).flatten

theorem polls_every (op : Instr) (h : op ∈ [Instr.pollAbandon, .pollComplete, .schedPoll]) :
    PolledEvery 1 op polls := by
  simp only [List.mem_cons, List.not_mem_nil, or_false] at h
  rcases h with rfl | rfl | rfl <;> exact polledEvery_of_pieces (by decide)

/-- Polls exactly an interval apart, with one TICK between two. -/
theorem test_polledEvery_ends : PolledEvery 5 .schedPoll [.tick 5, .schedPoll, .tick 5, .schedPoll] ∧
    ¬ PolledEvery 4 .schedPoll [.tick 5, .schedPoll] :=
  ⟨polledEvery_of_pieces (by decide), fun h => absurd (h [.tick 5] ⟨[], [.schedPoll], rfl⟩ (by decide)) (by decide)⟩

theorem witness_FullFrameCompletedInTime :
    let s := brisk (received 26 0 State.reset)
    Invariant s ∧ s.fcnt = 26 ∧ s.ageBit = 0 ∧ Instr.reset ∉ polls ∧ PolledEvery 1 .pollComplete polls
    ∧ s.cfg.gapUs.toNat + 1 + 1 ≤ elapsed polls :=
  ⟨by constructor <;> decide, by decide, by decide, by decide, polls_every _ (by decide), by decide⟩

/-- The second list begins with an edge that the filter rejects. -/
theorem witness_PartialFrameAbandonedInTime :
    let s := { brisk (received 24 0 State.reset) with ageEdge := 0 }
    Invariant s ∧ 0 < s.fcnt ∧ s.fcnt < 26 ∧ s.ageBit = 0 ∧ Instr.reset ∉ polls
    ∧ PolledEvery 1 .pollAbandon polls ∧ s.cfg.partialTimeoutUs.toNat + 1 + 1 ≤ elapsed polls
    ∧ PolledEvery 1 .pollAbandon (Instr.edgeD0 :: polls) :=
  ⟨by constructor <;> decide, by decide, by decide, by decide, by decide, polls_every _ (by decide), by decide,
    polledEvery_of_pieces (by decide)⟩

theorem witness_NextAttemptInTime :
    let s := brisk (fullPair .reject)
    Invariant s ∧ s.ageTx = 0 ∧ Instr.reset ∉ polls ∧ PolledEvery 1 .schedPoll polls
    ∧ s.cfg.cadenceUs.toNat + 1 ≤ elapsed polls ∧ 1 < elapsed polls :=
  ⟨by constructor <;> decide, by decide, by decide, polls_every _ (by decide), by decide, by decide⟩

/-- Six microseconds of thresholds of 2 and every poll after each microsecond, so that the intervals are 1. -/
theorem witness_AttemptsInASpan :
    Invariant (brisk (fullPair .reject)) ∧ Instr.reset ∉ polls ∧ 0 < (brisk (fullPair .reject)).cfg.cadenceUs
    ∧ PollOk 1 1 (brisk (fullPair .reject)).cfg polls ∧ attempts polls (brisk (fullPair .reject)) = 3 :=
  ⟨by constructor <;> decide, by decide, by decide,
    ⟨by decide, by decide, polls_every _ (by decide), polls_every _ (by decide), polls_every _ (by decide)⟩, by decide⟩

end Sys2Proof.Tests
end

section
/-! PROOF. Which configurations have no run: the ranges of 00_scope.md R10, the word of RESET, and the one place of a
step that refuses a configuration. -/

namespace Sys2Proof

/-! ### The word of RESET -/

theorem decodeZ_ok {w : OpWord} {i j : Instr} (h : decodeZ w i = .ok j) : w.extractLsb' 0 28 = 0 ∧ j = i := by
  unfold decodeZ at h
  split at h <;> cases h
  exact ⟨‹_›, rfl⟩

theorem decodeF26_ok {w : OpWord} {f : RawFrame → Instr} {j : Instr} (h : decodeF26 w f = .ok j) :
    w.extractLsb' 26 2 = 0 ∧ j = f (w.extractLsb' 0 26) := by
  unfold decodeF26 at h
  split at h <;> cases h
  exact ⟨‹_›, rfl⟩

theorem decodeI16_ok {w : OpWord} {f : CardId → Instr} {j : Instr} (h : decodeI16 w f = .ok j) :
    w.extractLsb' 16 12 = 0 ∧ j = f (w.extractLsb' 0 16) := by
  unfold decodeI16 at h
  split at h <;> cases h
  exact ⟨‹_›, rfl⟩

theorem decodeT28_ok {w : OpWord} {f : TickCount → Instr} {j : Instr} (h : decodeT28 w f = .ok j) :
    w.extractLsb' 0 28 ≠ 0 ∧ j = f (w.extractLsb' 0 28) := by
  unfold decodeT28 at h
  split at h <;> cases h
  exact ⟨‹_›, rfl⟩

/-- A word that decodes carries the opcode of its operation (30_encoding.md R90). -/
theorem decodeOp_ok_opcode {w : OpWord} {i : Instr} (h : decodeOp w = .ok i) : opcodeOf w = i.opcode := by
  apply BitVec.eq_of_toNat_eq
  unfold decodeOp at h
  split at h
  case h_5 hop => obtain ⟨-, rfl⟩ := decodeF26_ok h; exact hop
  case h_6 hop => obtain ⟨-, rfl⟩ := decodeI16_ok h; exact hop
  case h_7 hop => obtain ⟨-, rfl⟩ := decodeI16_ok h; exact hop
  case h_10 hop => obtain ⟨-, rfl⟩ := decodeT28_ok h; exact hop
  case h_12 => cases h
  all_goals obtain ⟨-, rfl⟩ := decodeZ_ok h; assumption

/-- Opcode and low field together are the whole word (30_encoding.md R91). -/
theorem opcodeOf_append_low (w : OpWord) : opcodeOf w ++ w.extractLsb' 0 28 = w :=
  BitVec.extractLsb'_append_extractLsb' (w := 4) (len := 28)

theorem decodeOp_eq_reset_iff (w : OpWord) : decodeOp w = .ok .reset ↔ w = 0xA0000000 := by
  constructor
  · intro h
    have hop : opcodeOf w = 0xA := decodeOp_ok_opcode h
    have hlow : w.extractLsb' 0 28 = 0 := by
      simp only [decodeOp, hop] at h
      exact (decodeZ_ok h).1
    rw [← opcodeOf_append_low w, hop, hlow]
    rfl
  · rintro rfl
    rfl

end Sys2Proof

namespace Sys2Proof.Machine

/-! ### The legal configurations -/

theorem thresholdLegal_iff (t : Age) : thresholdLegal t = true ↔ t.toNat ≤ 4294967294 := by
  simp [thresholdLegal]

theorem cfgLegal_iff_inRange (c : Cfg) : cfgLegal c = true ↔ CfgInRange c := by
  simp only [cfgLegal, Bool.and_eq_true, decide_eq_true_eq, thresholdLegal_iff, and_assoc]
  rfl

theorem cfgLegal_eq_false_iff (c : Cfg) : cfgLegal c = false ↔ ¬ CfgInRange c := by
  rw [← cfgLegal_iff_inRange, Bool.not_eq_true]

/-! ### No operation refuses -/

theorem outcomeOf_ne_refused (x : Except Fault State) (r : Refusal) : outcomeOf x ≠ .refused r := by
  cases x <;> simp [outcomeOf]

theorem atUnitLevel_ne_refused {o : Host.Outcome State Fault Refusal} {r : Refusal} (s : State)
    (h : o ≠ .refused r) : atUnitLevel s o ≠ .refused r := by
  unfold atUnitLevel
  split
  · exact h
  · simp

/-- No operation's meaning is a refusal: what it cannot do is a fault or a mark in the state. -/
theorem exec_ne_refused (i : Instr) (s : State) (r : Refusal) : exec i s ≠ .refused r := by
  cases i with
  | edgeD0 => exact outcomeOf_ne_refused _ r
  | edgeD1 => exact outcomeOf_ne_refused _ r
  | pollAbandon =>
    simp only [exec, execPollAbandon]
    split
    · split <;> simp
    · simp
    · simp
  | pollComplete =>
    simp only [exec, execPollComplete]
    split
    · split
      · split <;> simp
      · simp
    · simp
    · simp
  | decode raw => exact atUnitLevel_ne_refused s (by simp)
  | dupFilter id => exact atUnitLevel_ne_refused s (by split <;> simp)
  | qPush id => exact atUnitLevel_ne_refused s (by split <;> simp)
  | qPop => exact atUnitLevel_ne_refused s (by split <;> simp)
  | schedPoll =>
    simp only [exec, execSchedPoll]
    split
    · split <;> simp
    · simp
  | tick n => simp [exec, execTick]
  | reset => simp [exec, execReset]

/-! ### Where a step refuses -/

theorem step_refused_iff_stopInForce {s : State} {r : Refusal} (hs : s.stim = []) :
    step s = .refused r ↔ stopInForce s = some (.refused r) := by
  simp only [step, fetchWord, hs]
  cases stopInForce s <;> simp

theorem step_refused_iff_stopBefore {s : State} {w : OpWord} {rest : List OpWord} {r : Refusal}
    (hs : s.stim = w :: rest) :
    step s = .refused r ↔ stopBefore { s with stim := rest } (decodeOp w) = some (.refused r) := by
  simp only [step, fetchWord, hs]
  cases stopBefore { s with stim := rest } (decodeOp w) with
  | some stop => simp
  | none =>
    -- The word is taken: what runs, or the mark `REFUSED`, is no refusal.
    cases decodeOp w with
    | ok i => simp [exec_ne_refused]
    | error e => simp

theorem stopInForce_refused_iff {s : State} (hl : s.live = true) :
    stopInForce s = some (.refused .illegalConfiguration) ↔ ¬ CfgInRange s.cfg := by
  rw [← cfgLegal_eq_false_iff]
  cases hc : cfgLegal s.cfg with
  | false => simp [stopInForce_illegal hl hc]
  | true => simp [(stopInForce_none_iff s).mpr ⟨hl, hc⟩]

theorem stopBefore_of_ne_reset {s : State} {d : Except Invalid Instr} (hd : d ≠ .ok .reset) :
    stopBefore s d = stopInForce s := by
  unfold stopBefore
  split
  · exact absurd rfl hd
  · rfl

theorem stopBefore_reset_refused_iff (s : State) :
    stopBefore s (.ok .reset) = some (.refused .illegalConfiguration) ↔ ¬ CfgInRange (cfgAtRelease s) := by
  rw [← cfgLegal_eq_false_iff]
  cases hc : cfgLegal (cfgAtRelease s) <;> simp [stopBefore, hc]

/-- Settles O9: a step refuses exactly where `stopInForce` or `stopBefore` does, by the configuration each judges. -/
theorem illegalConfigurationHasNoRun : Obligations.IllegalConfigurationHasNoRun := by
  refine ⟨cfgLegal_iff_inRange, fun s hs hl => ?waiting, fun s w rest hs => ⟨fun hw hl => ?other, fun hw => ?reset⟩⟩
  case waiting => rw [step_refused_iff_stopInForce hs, stopInForce_refused_iff hl]
  case other =>
    have hd : decodeOp w ≠ .ok .reset := mt (decodeOp_eq_reset_iff w).mp hw
    rw [step_refused_iff_stopBefore hs, stopBefore_of_ne_reset hd]
    exact stopInForce_refused_iff (s := { s with stim := rest }) hl
  case reset =>
    rw [step_refused_iff_stopBefore hs, (decodeOp_eq_reset_iff w).mpr hw]
    exact stopBefore_reset_refused_iff { s with stim := rest }

end Sys2Proof.Machine
end

section
/-! PROOF. The invariant: it holds in the reset state and after every RESET that samples a legal configuration, and
every operation and every step keeps it. -/

namespace Sys2Proof.Machine

/-! ### A state with an empty frame and an empty, unwritten queue -/

theorem cap_pos_of_legal {c : Cfg} (h : cfgLegal c = true) : 0 < c.cap := by
  obtain ⟨-, -, -, -, -, pos, -⟩ := (cfgLegal_iff_inRange c).mp h
  exact pos

theorem Invariant.of_vacant {s : State} (legal : cfgLegal s.cfg = true) (next : ∀ c ∈ s.cfgNext, cfgLegal c = true)
    (live : s.live = true) (count : s.fcnt = 0) (q : s.q = []) (head : s.qHead = 0) (tail : s.qTail = 0)
    (occ : s.qCount = 0) : Invariant s := by
  have pos := cap_pos_of_legal legal
  refine ⟨legal, next, live, ?_, head ▸ pos, tail ▸ pos, occ ▸ pos.le, ?_, ?_, ?_, ?_⟩
  · simp [count]
  · simp [head, tail, occ]
  · simp [q]
  · simp [q]
  · simp [occ]

/-- Settles O51: the reset state is vacant and under the default configuration, with none to come. -/
theorem invariantAtReset : Obligations.InvariantAtReset :=
  Invariant.of_vacant (by decide) (List.forall_mem_nil _) rfl rfl rfl rfl rfl rfl

/-- RESET gives the invariant to any state, under legal configurations (46_timebase_reset.md R203). -/
theorem invariant_after_reset {s : State} (legal : cfgLegal (cfgAtRelease s) = true)
    (next : ∀ c ∈ s.cfgNext, cfgLegal c = true) : Invariant (resetBlock (sampleCfg s)) :=
  Invariant.of_vacant legal (fun c hc => next c (List.mem_of_mem_tail hc)) rfl rfl rfl rfl rfl rfl

/-- What the inputs hold at a release is the configuration in force or one of those to come. -/
theorem Invariant.legalAtRelease {s : State} (hs : Invariant s) : cfgLegal (cfgAtRelease s) = true := by
  unfold cfgAtRelease
  split
  · rename_i c rest hn
    exact hs.legalNext c (by simp [hn])
  · exact hs.legal

/-! ### The updates that leave the queue as it is -/

section Updates

variable {s : State} (hs : Invariant s)
include hs

theorem Invariant.withStim (ws : List OpWord) : Invariant { s with stim := ws } :=
  hs.of_same rfl rfl rfl hs.count rfl rfl rfl rfl

theorem Invariant.refuseWord : Invariant (refuseWord s) := hs.of_same rfl rfl rfl hs.count rfl rfl rfl rfl

theorem Invariant.recordResult (r : UnitResult) : Invariant (recordResult r s) :=
  hs.of_same rfl rfl rfl hs.count rfl rfl rfl rfl

theorem Invariant.raise (c : EventCode) (i : Option CardId) : Invariant (raise c i s) :=
  hs.of_same rfl rfl rfl hs.count rfl rfl rfl rfl

theorem Invariant.emitTx (r : CardId) : Invariant (emitTx r s) :=
  hs.of_same rfl rfl rfl hs.count rfl rfl rfl rfl

theorem Invariant.passTime (n : Nat) : Invariant (passTime n s) :=
  hs.of_same rfl rfl rfl hs.count rfl rfl rfl rfl

theorem Invariant.restartCadence : Invariant { s with ageTx := 0 } :=
  hs.of_same rfl rfl rfl hs.count rfl rfl rfl rfl

theorem Invariant.restartEdgeAge : Invariant { s with ageEdge := 0 } :=
  hs.of_same rfl rfl rfl hs.count rfl rfl rfl rfl

theorem Invariant.clearFrame : Invariant (clearFrame s) :=
  hs.of_same rfl rfl rfl (Nat.zero_le 26) rfl rfl rfl rfl

/-- A bit is appended to at most 25, so the count stays in 0..26. -/
theorem Invariant.appendBit (b : Bool) (room : s.fcnt < 26) : Invariant (appendBit b s) := by
  have count : (s.fcnt + 1).toNat ≤ 26 := by bv_omega
  exact hs.of_same rfl rfl rfl count rfl rfl rfl rfl

end Updates

/-! ### Operations and steps -/

theorem Effect.keeps_invariant {s t : State} {i : Instr} (hs : Invariant s) (h : Effect s i t) : Invariant t := by
  cases h with
  | edgeRejected | abandonIdle | completeIdle | schedIdle => exact hs
  | edgeIgnored => exact hs.restartEdgeAge
  | edgeAppended line yes room => exact hs.restartEdgeAge.appendBit _ room
  | abandoned => exact hs.clearFrame.raise _ _
  | completed full settled offer => exact hs.clearFrame.offered offer
  | unitRefused => exact hs.refuseWord
  | decoded | popEmpty => exact hs.recordResult _
  | filteredForward unit offer | filteredSuppress unit offer => exact (hs.offered offer).recordResult _
  | pushedSuccess unit push | pushedFail unit push => exact (hs.pushed push).recordResult _
  | popEntry unit held => exact (hs.afterPop held).recordResult _
  | schedEmpty => exact hs.restartCadence
  | schedSent due held => exact ((hs.restartCadence.afterPop held).emitTx _).raise _ _
  | ticked n => exact hs.passTime _
  | reset => exact invariant_after_reset hs.legalAtRelease hs.legalNext

theorem exec_keeps_invariant {s t : State} {i : Instr} (hs : Invariant s) (h : exec i s = .next t) : Invariant t :=
  (exec_effect h).keeps_invariant hs

/-- Settles O53, by the cases of a step: it waits, marks a refused word, or runs an operation, which keeps the
invariant by `Effect.keeps_invariant`. -/
theorem invariantKeptByEveryStep : Obligations.InvariantKeptByEveryStep := by
  intro s t hs h
  obtain ⟨-, -, -, rfl⟩ | ⟨w, rest, -, ⟨-, -, -, rfl⟩ | ⟨i, -, -, hexec⟩⟩ := step_next h
  · exact hs
  · exact (hs.withStim rest).refuseWord
  · exact exec_keeps_invariant (hs.withStim rest) hexec

end Sys2Proof.Machine
end

section
/-! PROOF. What each agent's operations leave as it was (10_state.md R37), and from it what no operation but RESET
writes: the configuration and the level. -/

namespace Sys2Proof.Machine

/-- Nothing but the elements the capture unit writes differs. -/
def CaptureFrame (s t : State) : Prop :=
  t = { s with fbit := t.fbit, fcnt := t.fcnt, ageBit := t.ageBit, ageEdge := t.ageEdge }

/-- Nothing but the elements the poll unit writes differs. -/
def PollFrame (s t : State) : Prop :=
  t = { s with fbit := t.fbit, fcnt := t.fcnt, dupValid := t.dupValid, dupId := t.dupId, ageDup := t.ageDup,
               q := t.q, qHead := t.qHead, qTail := t.qTail, qCount := t.qCount, ev := t.ev, res := t.res,
               refused := t.refused }

/-- Nothing but the elements the scheduler unit writes differs. -/
def SchedulerFrame (s t : State) : Prop :=
  t = { s with qTail := t.qTail, qCount := t.qCount, ageTx := t.ageTx, ev := t.ev, out := t.out, res := t.res,
               refused := t.refused }

theorem PollFrame.trans {s t u : State} (first : PollFrame s t) (second : PollFrame t u) : PollFrame s u := by
  unfold PollFrame at first second ⊢
  rw [first] at second
  exact second

theorem PollFrame.recordResult {s t : State} (h : PollFrame s t) (r : UnitResult) : PollFrame s (recordResult r t) :=
  h.trans rfl

theorem Pushed.pollFrame {id : CardId} {s t : State} {r : PushResult} (h : Pushed id s t r) : PollFrame s t := by
  cases h with
  | stored | replaced | rejected => rfl

theorem Offered.pollFrame {id : CardId} {s t : State} {d : DupVerdict} (h : Offered id s t d) : PollFrame s t := by
  cases h with
  | dropped => rfl
  | passed fresh push => exact PollFrame.trans (t := noteForward id s) rfl push.pollFrame

theorem EdgeOf.agent_eq {i : Instr} {b : Bool} (line : EdgeOf i b) : i.agent = .capture := by
  cases line <;> rfl

/-- The unit-only operations belong to the poll unit and the scheduler unit (30_encoding.md R90). -/
theorem agent_of_unitOnly {i : Instr} (only : i.unitOnly = true) : i.agent = .poll ∨ i.agent = .scheduler := by
  cases i with
  | decode | dupFilter | qPush => exact .inl rfl
  | qPop => exact .inr rfl
  | _ => cases only

/-- The elements an agent may write, as a relation of the states before and after (10_state.md R37). -/
def AgentFrame : Agent → State → State → Prop
  | .capture => CaptureFrame
  | .poll => PollFrame
  | .scheduler => SchedulerFrame
  | .environment => fun _ _ => True

theorem Effect.agentFrame {s t : State} {i : Instr} (h : Effect s i t) : AgentFrame i.agent s t := by
  cases h with
  | edgeRejected line | edgeIgnored line | edgeAppended line => rw [line.agent_eq]; rfl
  | abandonIdle | abandoned | completeIdle | decoded | popEmpty | popEntry | schedIdle | schedEmpty | schedSent => rfl
  | completed full settled offer => exact PollFrame.trans (t := clearFrame s) rfl offer.pollFrame
  | unitRefused block only => rcases agent_of_unitOnly only with ha | ha <;> rw [ha] <;> rfl
  | filteredForward unit offer | filteredSuppress unit offer => exact offer.pollFrame.recordResult _
  | pushedSuccess unit push | pushedFail unit push => exact push.pollFrame.recordResult _
  | ticked | reset => trivial

/-- Settles O48: `Effect.agentFrame`, read for each agent. -/
theorem agentsWriteOnlyTheirState : Obligations.AgentsWriteOnlyTheirState := by
  intro s t i h
  have frame := (exec_effect h).agentFrame
  refine ⟨fun ha => ?capture, fun ha => ?poll, fun ha => ?scheduler⟩
  all_goals rw [ha] at frame; exact frame

/-! ### The configuration and the level -/

/-- The configuration, those to come and the level are as before. -/
def ConfigKept (s t : State) : Prop := t.level = s.level ∧ t.cfg = s.cfg ∧ t.cfgNext = s.cfgNext

theorem AgentFrame.configKept {a : Agent} {s t : State} (h : AgentFrame a s t) (ha : a ≠ .environment) :
    ConfigKept s t := by
  cases a with
  | capture | poll | scheduler =>
    rw [ConfigKept, show t = _ from h]
    exact ⟨rfl, rfl, rfl⟩
  | environment => exact absurd rfl ha

theorem exec_keeps_config {s t : State} {i : Instr} (hi : i ≠ .reset) (h : exec i s = .next t) : ConfigKept s t := by
  cases i with
  | tick n => rw [exec_tick_next h]; exact ⟨rfl, rfl, rfl⟩
  | reset => exact absurd rfl hi
  | _ => exact (exec_effect h).agentFrame.configKept nofun

/-- RESET takes the next configuration of its inputs, and with none to come it keeps the one in force
(70_reset_and_hazards.md R240). -/
theorem sampleCfg_cases (s : State) :
    ((sampleCfg s).cfg = s.cfg ∧ (sampleCfg s).cfgNext = s.cfgNext)
      ∨ s.cfgNext = (sampleCfg s).cfg :: (sampleCfg s).cfgNext := by
  cases hn : s.cfgNext <;> simp [cfgAtRelease, hn]

/-- Settles O47, by the cases of a step: only RESET's word runs an operation that samples a configuration. -/
theorem configurationIsStatic : Obligations.ConfigurationIsStatic := by
  intro s t h
  obtain ⟨-, -, -, rfl⟩ | ⟨w, rest, hs, ⟨-, -, -, rfl⟩ | ⟨i, hd, -, hexec⟩⟩ := step_next h
  · exact ⟨rfl, .inl ⟨rfl, rfl⟩⟩
  · exact ⟨rfl, .inl ⟨rfl, rfl⟩⟩
  · by_cases hi : i = .reset
    · subst hi
      have hw := (decodeOp_eq_reset_iff w).mp hd
      rw [exec_reset_next hexec]
      refine ⟨rfl, (sampleCfg_cases { s with stim := rest }).imp id fun sampled => ?_⟩
      exact ⟨rest, hw ▸ hs, sampled⟩
    · obtain ⟨level, cfg, next⟩ := exec_keeps_config hi hexec
      exact ⟨level, .inl ⟨cfg, next⟩⟩

end Sys2Proof.Machine
end

section
/-! PROOF. The traces only grow (10_state.md R35): every operation, RESET among them, appends to `EV`, `OUT` and `RES`
or leaves them. -/

namespace Sys2Proof.Machine

/-- The traces before are prefixes of the traces after. -/
def TracesGrow (s t : State) : Prop := s.ev <+: t.ev ∧ s.out <+: t.out ∧ s.res <+: t.res

theorem TracesGrow.of_same {s t : State} (ev : t.ev = s.ev) (out : t.out = s.out) (res : t.res = s.res) :
    TracesGrow s t := by
  rw [TracesGrow, ev, out, res]
  exact ⟨List.prefix_rfl, List.prefix_rfl, List.prefix_rfl⟩

theorem TracesGrow.trans {s t u : State} (first : TracesGrow s t) (second : TracesGrow t u) : TracesGrow s u := by
  obtain ⟨ev, out, res⟩ := first
  obtain ⟨ev', out', res'⟩ := second
  exact ⟨ev.trans ev', out.trans out', res.trans res'⟩

theorem tracesGrow_raise (c : EventCode) (i : Option CardId) (s : State) : TracesGrow s (raise c i s) :=
  ⟨List.prefix_append _ _, List.prefix_rfl, List.prefix_rfl⟩

theorem tracesGrow_emitTx (r : CardId) (s : State) : TracesGrow s (emitTx r s) :=
  ⟨List.prefix_rfl, List.prefix_append _ _, List.prefix_rfl⟩

theorem tracesGrow_recordResult (r : UnitResult) (s : State) : TracesGrow s (recordResult r s) :=
  ⟨List.prefix_rfl, List.prefix_rfl, List.prefix_append _ _⟩

theorem tracesGrow_afterInsert (id : CardId) (s : State) : TracesGrow s (afterInsert id s) :=
  ⟨List.prefix_append _ _, List.prefix_rfl, List.prefix_rfl⟩

theorem tracesGrow_afterEvict (old : CardId) (s : State) : TracesGrow s (afterEvict old s) :=
  ⟨List.prefix_append _ _, List.prefix_rfl, List.prefix_rfl⟩

theorem Pushed.tracesGrow {id : CardId} {s t : State} {r : PushResult} (h : Pushed id s t r) : TracesGrow s t := by
  cases h with
  | stored => exact tracesGrow_afterInsert id s
  | replaced => exact (tracesGrow_afterEvict _ s).trans (tracesGrow_afterInsert id _)
  | rejected => exact tracesGrow_raise _ _ s

theorem Offered.tracesGrow {id : CardId} {s t : State} {d : DupVerdict} (h : Offered id s t d) : TracesGrow s t := by
  cases h with
  | dropped => exact .of_same rfl rfl rfl
  | passed fresh push => exact push.tracesGrow

theorem Effect.tracesGrow {s t : State} {i : Instr} (h : Effect s i t) : TracesGrow s t := by
  cases h with
  | edgeRejected | edgeIgnored | edgeAppended | abandonIdle | completeIdle | unitRefused | schedIdle | schedEmpty
  | ticked | reset => exact .of_same rfl rfl rfl
  | abandoned => exact tracesGrow_raise _ _ (clearFrame s)
  | completed full settled offer => exact offer.tracesGrow
  | decoded | popEmpty => exact tracesGrow_recordResult _ s
  | popEntry => exact tracesGrow_recordResult _ (afterPop s)
  | filteredForward unit offer | filteredSuppress unit offer =>
    exact offer.tracesGrow.trans (tracesGrow_recordResult _ _)
  | pushedSuccess unit push | pushedFail unit push => exact push.tracesGrow.trans (tracesGrow_recordResult _ _)
  | schedSent =>
    exact (tracesGrow_emitTx _ (afterPop { s with ageTx := 0 })).trans (tracesGrow_raise _ _ _)

/-- Settles O50, by the cases of a step. -/
theorem tracesOnlyGrow : Obligations.TracesOnlyGrow := by
  intro s t h
  obtain ⟨-, -, -, rfl⟩ | ⟨w, rest, -, ⟨-, -, -, rfl⟩ | ⟨i, -, -, hexec⟩⟩ := step_next h
  · exact TracesGrow.of_same rfl rfl rfl
  · exact TracesGrow.of_same rfl rfl rfl
  · exact (exec_effect hexec).tracesGrow

end Sys2Proof.Machine
end

section
/-! PROOF. An accepted edge by the frame count: it appends its bit below 26 and faults above; and the two places where
that is seen, the first edge after RESET (10_state.md R28) and a count that no run reaches (R25, U3). -/

namespace Sys2Proof.Machine

theorem exec_edgeD0_eq (s : State) : exec .edgeD0 s = outcomeOf (edge false s) := rfl

theorem exec_edgeD1_eq (s : State) : exec .edgeD1 s = outcomeOf (edge true s) := rfl

theorem edge_appends {b : Bool} {s : State} (yes : edgeAccepted s = true) (room : s.fcnt < 26) :
    edge b s = .ok (appendBit b { s with ageEdge := 0 }) := by
  cases h : edge b s with
  | ok t =>
    obtain ⟨no, -⟩ | ⟨-, full, -⟩ | ⟨-, -, rfl⟩ := edge_ok h
    · simp [yes] at no
    · simp [full] at room
    · rfl
  | error f =>
    have above := edge_error h
    bv_omega

theorem edge_faults {b : Bool} {s : State} (yes : edgeAccepted s = true) (above : 26 < s.fcnt) :
    edge b s = .error .frameCountOutOfRange := by
  simp [edge, yes, (frameState_none_iff s).mpr above]

/-- RESET leaves `age_edge` at `AGE_MAX`, above every legal dead time, so that the first edge passes the filter
(10_state.md R28). -/
theorem edgeAccepted_after_reset {s : State} (legal : cfgLegal (cfgAtRelease s) = true) :
    edgeAccepted (resetBlock (sampleCfg s)) = true := by
  obtain ⟨dead, -⟩ := (cfgLegal_iff_inRange _).mp legal
  refine (edgeAccepted_iff _).mpr (.inr (BitVec.lt_def.mpr ?_))
  rw [resetBlock_ageEdge]
  exact Nat.lt_of_le_of_lt dead (by decide)

theorem edge_after_reset {s : State} (b : Bool) (legal : cfgLegal (cfgAtRelease s) = true) :
    ∃ u, outcomeOf (edge b (resetBlock (sampleCfg s))) = .next u
      ∧ u.fcnt = 1 ∧ u.fbit[0] = b ∧ u.ageEdge = 0 ∧ u.ageBit = 0 := by
  have room : (resetBlock (sampleCfg s)).fcnt < 26 := by simp
  rw [edge_appends (edgeAccepted_after_reset legal) room]
  exact ⟨_, rfl, rfl, by simp, rfl, rfl⟩

/-- Settles O13: both lines carry `edge_after_reset`. -/
theorem firstEdgeAfterResetStartsAFrame : Obligations.FirstEdgeAfterResetStartsAFrame := by
  intro s t legal h
  rw [exec_reset_next h, exec_edgeD0_eq, exec_edgeD1_eq]
  exact ⟨edge_after_reset false legal, edge_after_reset true legal⟩

/-- Settles O23: each of the operations finds that the count is no state of the frame (log entry 7). -/
theorem frameCountAbove26Faults : Obligations.FrameCountAbove26Faults := by
  intro s above
  have noState := (frameState_none_iff s).mpr above
  refine ⟨?abandon, ?complete, fun passes => ?edges⟩
  case abandon => simp [exec, execPollAbandon, noState]
  case complete => simp [exec, execPollComplete, noState]
  case edges =>
    have yes := (edgeAccepted_iff s).mpr passes
    rw [exec_edgeD0_eq, exec_edgeD1_eq, edge_faults yes above, edge_faults yes above]
    exact ⟨rfl, rfl⟩

end Sys2Proof.Machine
end

section
/-! PROOF. The storage of the queue (20_memory.md R50, R53): an index of N or more faults, and the slot at `q_head` is
the only one that any operation but RESET writes. -/

namespace Sys2Proof.Machine

/-! ### A slot index of N or more -/

theorem memRead_of_ge {s : State} {i : Nat} (hi : s.cfg.cap ≤ i) : memRead s i = .error .slotOutOfRange := by
  simp [memRead, hi]

theorem memWrite_of_ge {s : State} {i : Nat} (v : CardId) (hi : s.cfg.cap ≤ i) :
    memWrite s i v = .error .slotOutOfRange := by
  simp [memWrite, hi]

theorem push_bad_head {id : CardId} {s : State} (room : s.qCount < s.cfg.cap) (bad : s.cfg.cap ≤ s.qHead) :
    push id s = .error .slotOutOfRange := by
  simp [push, room, insertAtHead, memWrite_of_ge id bad]

theorem pop_bad_tail {s : State} (held : 0 < s.qCount) (bad : s.cfg.cap ≤ s.qTail) :
    pop s = .error .slotOutOfRange := by
  simp [pop, qEmpty, held.ne', memRead_of_ge bad]

/-- Settles O36: the push and the pop pass on the fault of the slot they use; a pop below N gives `slotValue`. -/
theorem badSlotFaults : Obligations.BadSlotFaults := by
  intro s id unit
  refine ⟨fun room bad => ?push, fun held bad => ?pop, fun held tail unwritten => ?free⟩
  case push => simp [exec, execQPush, atUnitLevel_unit _ unit, push_bad_head room bad]
  case pop => simp [exec, execQPop, atUnitLevel_unit _ unit, pop_bad_tail held bad]
  case free =>
    refine ⟨recordResult (.value (slotValue s s.qTail)) (afterPop s), ?_, ?_⟩
    · simp [exec, execQPop, atUnitLevel_unit _ unit, pop_entry held tail]
    · rw [recordResult_res, slotValue_unwritten unwritten]
      rfl

/-! ### The frame of the storage -/

/-- Every slot but the head's reads as before, and the head's too unless the last event captures what it holds. -/
def StorageFrame (s t : State) : Prop :=
  (∀ a, a ≠ s.qHead → slotValue t a = slotValue s a) ∧
  (slotValue t s.qHead = slotValue s s.qHead
    ∨ ∃ id, slotValue t s.qHead = id ∧ t.ev.getLast? = some ⟨.captureSuccess, some id⟩)

theorem StorageFrame.of_same {s t : State} (q : t.q = s.q) (resets : t.resets = s.resets) : StorageFrame s t :=
  ⟨fun a _ => slotValue_congr q resets a, .inl (slotValue_congr q resets _)⟩

theorem slotValue_afterInsert_head (id : CardId) (s : State) : slotValue (afterInsert id s) s.qHead = id := by
  simp [slotValue, afterInsert]

theorem slotValue_afterInsert_other {s : State} {a : Nat} (id : CardId) (ha : a ≠ s.qHead) :
    slotValue (afterInsert id s) a = slotValue s a := by
  simp only [slotValue, afterInsert, Memory.read_write_other _ _ ha]

theorem storageFrame_afterInsert (id : CardId) (s : State) : StorageFrame s (afterInsert id s) :=
  ⟨fun _ ha => slotValue_afterInsert_other id ha,
    .inr ⟨id, slotValue_afterInsert_head id s, List.getLast?_concat⟩⟩

theorem Pushed.storageFrame {id : CardId} {s t : State} {r : PushResult} (h : Pushed id s t r) :
    StorageFrame s t := by
  cases h with
  | stored => exact storageFrame_afterInsert id s
  -- The eviction moves the tail and writes no slot.
  | replaced => exact storageFrame_afterInsert id (afterEvict _ s)
  | rejected => exact .of_same rfl rfl

theorem Offered.storageFrame {id : CardId} {s t : State} {d : DupVerdict} (h : Offered id s t d) :
    StorageFrame s t := by
  cases h with
  | dropped => exact .of_same rfl rfl
  | passed fresh push => exact push.storageFrame

theorem Effect.storageFrame {s t : State} {i : Instr} (hi : i ≠ .reset) (h : Effect s i t) : StorageFrame s t := by
  cases h with
  | edgeRejected | edgeIgnored | edgeAppended | abandonIdle | abandoned | completeIdle | unitRefused | decoded
  | popEmpty | popEntry | schedIdle | schedEmpty | schedSent | ticked => exact .of_same rfl rfl
  | completed full settled offer => exact offer.storageFrame
  | filteredForward unit offer | filteredSuppress unit offer => exact offer.storageFrame
  | pushedSuccess unit push | pushedFail unit push => exact push.storageFrame
  | reset => exact absurd rfl hi

/-- Settles O32: `Effect.storageFrame`; the push is the one update among the effects that writes a slot. -/
theorem onlyTheHeadSlotIsWritten : Obligations.OnlyTheHeadSlotIsWritten :=
  fun _ _ _ hi h => (exec_effect h).storageFrame hi

end Sys2Proof.Machine
end

section
/-! PROOF. The two polling checks commute (20_memory.md R56): POLL_ABANDON acts only while FILLING and POLL_COMPLETE
only while FULL, and neither leaves a frame the other acts on. -/

namespace Sys2Proof.Machine

/-! ### An operation that is idle before and after another -/

theorem runOps_pair_of_idle_before {i j : Instr} {s : State} (idle : exec j s = .next s) :
    runOps [j, i] s = exec i s := by
  rw [runOps_cons_next _ idle]
  simp only [runOps]
  cases exec i s <;> rfl

theorem runOps_pair_of_idle_after {i j : Instr} {s : State} (idle : ∀ t, exec i s = .next t → exec j t = .next t) :
    runOps [i, j] s = exec i s := by
  cases h : exec i s with
  | next t => rw [runOps_cons_next _ h, runOps_cons_next _ (idle t h)]; rfl
  | fault f => simp [runOps, h]
  | refused r => simp [runOps, h]

/-- An operation that changes nothing before another and nothing after it commutes with it. -/
theorem runOps_pair_comm {i j : Instr} {s : State} (before : exec j s = .next s)
    (after : ∀ t, exec i s = .next t → exec j t = .next t) : runOps [i, j] s = runOps [j, i] s :=
  (runOps_pair_of_idle_after after).trans (runOps_pair_of_idle_before before).symm

/-! ### Where each check is idle, and what it leaves -/

theorem pollAbandon_idle {s : State} (h : s.fcnt = 0 ∨ s.fcnt = 26) : exec .pollAbandon s = .next s := by
  rcases h with h | h
  · simp [exec, execPollAbandon, (frameState_empty_iff s).mpr h]
  · simp [exec, execPollAbandon, (frameState_full_iff s).mpr h]

theorem pollComplete_idle {s : State} (few : s.fcnt < 26) : exec .pollComplete s = .next s := by
  obtain h | h : s.fcnt = 0 ∨ 0 < s.fcnt := by bv_omega
  · simp [exec, execPollComplete, (frameState_empty_iff s).mpr h]
  · simp [exec, execPollComplete, (frameState_filling_iff s).mpr ⟨h, few⟩]

theorem Pushed.fcnt_eq {id : CardId} {s t : State} {r : PushResult} (h : Pushed id s t r) : t.fcnt = s.fcnt := by
  cases h with
  | stored | replaced | rejected => rfl

theorem Offered.fcnt_eq {id : CardId} {s t : State} {d : DupVerdict} (h : Offered id s t d) : t.fcnt = s.fcnt := by
  cases h with
  | dropped => rfl
  | passed fresh push => exact push.fcnt_eq

/-- A completed frame leaves the buffer empty, which no push after it changes (41_frame_assembler.md R124). -/
theorem pollComplete_fcnt {s t : State} (h : exec .pollComplete s = .next t) : t.fcnt = 0 ∨ t = s := by
  obtain rfl | ⟨-, -, d, ho⟩ := exec_pollComplete_next h
  · exact .inr rfl
  · exact .inl (offered_of_offer ho).fcnt_eq

theorem pollAbandon_fcnt {s t : State} (h : exec .pollAbandon s = .next t) : t.fcnt = 0 ∨ t = s := by
  obtain rfl | ⟨-, -, -, rfl⟩ := exec_pollAbandon_next h
  · exact .inr rfl
  · exact .inl rfl

/-- Settles O21, by the frame count: below 26 completion is idle before and after abandonment, at 26 abandonment is
idle before and after completion, and above 26 both fault alike. -/
theorem pollChecksCommute : Obligations.PollChecksCommute := by
  intro s
  obtain few | full | above : s.fcnt < 26 ∨ s.fcnt = 26 ∨ 26 < s.fcnt := by bv_omega
  · refine runOps_pair_comm (pollComplete_idle few) fun t h => pollComplete_idle ?_
    obtain h0 | rfl := pollAbandon_fcnt h
    · simp [h0]
    · exact few
  · refine (runOps_pair_comm (pollAbandon_idle (.inr full)) fun t h => pollAbandon_idle ?_).symm
    obtain h0 | rfl := pollComplete_fcnt h
    · exact .inl h0
    · exact .inr full
  · obtain ⟨abandon, complete, -⟩ := frameCountAbove26Faults s above
    simp [runOps, abandon, complete]

end Sys2Proof.Machine
end

section
/-! PROOF. The decoder and the encoder are inverse (30_encoding.md R90 to R93, R99), and a word decodes exactly when
its fields are not INVALID ones (R94). -/

namespace Sys2Proof

/-! ### The fields of a word as numbers -/

theorem opcodeOf_toNat (w : OpWord) : (opcodeOf w).toNat = w.toNat / 2 ^ 28 := by
  have := w.isLt
  rw [opcodeOf, BitVec.extractLsb'_toNat, Nat.shiftRight_eq_div_pow]
  omega

theorem low_toNat (w : OpWord) : (w.extractLsb' 0 28).toNat = w.toNat % 2 ^ 28 := by
  rw [BitVec.extractLsb'_toNat, Nat.shiftRight_zero]

/-- A "must be 0" field of k bits above n operand bits is zero exactly when those n + k bits are below 2^n
(30_encoding.md R91). -/
theorem zeroField_iff (w : OpWord) (n k : Nat) : w.extractLsb' n k = 0 ↔ w.toNat % 2 ^ (n + k) < 2 ^ n := by
  have field : (w.extractLsb' n k).toNat = w.toNat % 2 ^ (n + k) / 2 ^ n := by
    rw [BitVec.extractLsb'_toNat, Nat.shiftRight_eq_div_pow, Nat.pow_add, Nat.mod_mul_right_div_self]
  rw [← Nat.div_eq_zero_iff_lt (Nat.two_pow_pos n), ← field, BitVec.toNat_eq]
  rfl

theorem low_eq_zero_iff (w : OpWord) : w.extractLsb' 0 28 = 0 ↔ w.toNat % 2 ^ 28 = 0 :=
  (zeroField_iff w 0 28).trans Nat.lt_one_iff

/-- An operand below a zero field is all of op[27:0], zero-extended (30_encoding.md R92). -/
theorem zext_operand_eq_low {n : Nat} (w : OpWord) (hn : n ≤ 28) (zero : w.toNat % 2 ^ 28 < 2 ^ n) :
    (w.extractLsb' 0 n).setWidth 28 = w.extractLsb' 0 28 := by
  have same : w.toNat % 2 ^ n = w.toNat % 2 ^ 28 := by
    rw [← Nat.mod_mod_of_dvd _ (Nat.pow_dvd_pow 2 hn), Nat.mod_eq_of_lt zero]
  apply BitVec.eq_of_toNat_eq
  rw [BitVec.toNat_setWidth, low_toNat, BitVec.extractLsb'_toNat, Nat.shiftRight_zero, same, Nat.mod_mod]

/-! ### The formats -/

theorem decodeZ_of_zero {w : OpWord} (i : Instr) (zero : w.extractLsb' 0 28 = 0) : decodeZ w i = .ok i := if_pos zero

theorem decodeF26_of_zero {w : OpWord} (f : RawFrame → Instr) (zero : w.extractLsb' 26 2 = 0) :
    decodeF26 w f = .ok (f (w.extractLsb' 0 26)) := if_pos zero

theorem decodeI16_of_zero {w : OpWord} (f : CardId → Instr) (zero : w.extractLsb' 16 12 = 0) :
    decodeI16 w f = .ok (f (w.extractLsb' 0 16)) := if_pos zero

theorem decodeT28_of_ne_zero {w : OpWord} (f : TickCount → Instr) (ne : w.extractLsb' 0 28 ≠ 0) :
    decodeT28 w f = .ok (f (w.extractLsb' 0 28)) := if_neg ne

theorem exists_decodeZ_iff (w : OpWord) (i : Instr) : (∃ j, decodeZ w i = .ok j) ↔ w.toNat % 2 ^ 28 = 0 := by
  rw [← low_eq_zero_iff]
  exact ⟨fun ⟨_, h⟩ => (decodeZ_ok h).1, fun zero => ⟨i, decodeZ_of_zero i zero⟩⟩

theorem exists_decodeF26_iff (w : OpWord) (f : RawFrame → Instr) :
    (∃ j, decodeF26 w f = .ok j) ↔ w.toNat % 2 ^ 28 < 2 ^ 26 := by
  rw [← zeroField_iff w 26 2]
  exact ⟨fun ⟨_, h⟩ => (decodeF26_ok h).1, fun zero => ⟨_, decodeF26_of_zero f zero⟩⟩

theorem exists_decodeI16_iff (w : OpWord) (f : CardId → Instr) :
    (∃ j, decodeI16 w f = .ok j) ↔ w.toNat % 2 ^ 28 < 2 ^ 16 := by
  rw [← zeroField_iff w 16 12]
  exact ⟨fun ⟨_, h⟩ => (decodeI16_ok h).1, fun zero => ⟨_, decodeI16_of_zero f zero⟩⟩

theorem exists_decodeT28_iff (w : OpWord) (f : TickCount → Instr) :
    (∃ j, decodeT28 w f = .ok j) ↔ w.toNat % 2 ^ 28 ≠ 0 := by
  rw [Ne, ← low_eq_zero_iff]
  exact ⟨fun ⟨_, h⟩ => (decodeT28_ok h).1, fun ne => ⟨_, decodeT28_of_ne_zero f ne⟩⟩

/-! ### Decoding and encoding -/

theorem decodeZ_append (a : BitVec 4) (i : Instr) : decodeZ (a ++ (0 : BitVec 28)) i = .ok i :=
  decodeZ_of_zero i (extract_operand28 a 0)

theorem decodeF26_append (a : BitVec 4) (raw : RawFrame) (f : RawFrame → Instr) :
    decodeF26 (a ++ raw.setWidth 28) f = .ok (f raw) := by
  rw [decodeF26_of_zero f (extract_zero2 a raw), extract_operand26]

theorem decodeI16_append (a : BitVec 4) (id : CardId) (f : CardId → Instr) :
    decodeI16 (a ++ id.setWidth 28) f = .ok (f id) := by
  rw [decodeI16_of_zero f (extract_zero12 a id), extract_operand16]

theorem decodeT28_append (a : BitVec 4) {n : TickCount} (ne : n ≠ 0) (f : TickCount → Instr) :
    decodeT28 (a ++ n) f = .ok (f n) := by
  rw [decodeT28_of_ne_zero f (by rwa [extract_operand28]), extract_operand28]

/-- Settles O2: the opcode selects the operation's format, which reads the operand back. -/
theorem decodeOfEncode : Obligations.DecodeOfEncode := by
  intro i wf
  obtain ⟨opcode, -⟩ := Laws.OpcodeField.of_encode i
  rw [decodeOp, opcode]
  cases i with
  | decode raw => exact decodeF26_append _ raw _
  | dupFilter id | qPush id => exact decodeI16_append _ id _
  | tick n => exact decodeT28_append _ (bne_iff_ne.mp wf) _
  | edgeD0 | edgeD1 | pollAbandon | pollComplete | qPop | schedPoll | reset => exact decodeZ_append _ _

/-- A word that decodes carries the operand field of its operation, which is well-formed (30_encoding.md R91, R92). -/
theorem decodeOp_ok_operand {w : OpWord} {i : Instr} (h : decodeOp w = .ok i) :
    i.operandField = w.extractLsb' 0 28 ∧ i.wellFormed = true := by
  unfold decodeOp at h
  split at h
  case h_5 =>
    obtain ⟨zero, rfl⟩ := decodeF26_ok h
    exact ⟨zext_operand_eq_low w (by decide) ((zeroField_iff w 26 2).mp zero), rfl⟩
  case h_6 | h_7 =>
    obtain ⟨zero, rfl⟩ := decodeI16_ok h
    exact ⟨zext_operand_eq_low w (by decide) ((zeroField_iff w 16 12).mp zero), rfl⟩
  case h_10 =>
    obtain ⟨ne, rfl⟩ := decodeT28_ok h
    exact ⟨rfl, bne_iff_ne.mpr ne⟩
  case h_12 => cases h
  all_goals
    obtain ⟨zero, rfl⟩ := decodeZ_ok h
    exact ⟨zero.symm, rfl⟩

/-- Settles O3: opcode and operand field are the whole of the word. -/
theorem encodeOfDecode : Obligations.EncodeOfDecode := by
  intro w i h
  obtain ⟨operand, wf⟩ := decodeOp_ok_operand h
  refine ⟨?_, wf⟩
  rw [encode, ← decodeOp_ok_opcode h, operand, opcodeOf_append_low]

end Sys2Proof

namespace Sys2Proof.Machine

/-! ### The INVALID words -/

/-- Settles O4, by the opcode: its format's zero field, or the count of `TICK`, is what `InvalidFields` tests. -/
theorem invalidVerdictExactly : Obligations.InvalidVerdictExactly := by
  intro w
  have opc := opcodeOf_toNat w
  unfold decodeOp
  split
  case h_5 hop => rw [exists_decodeF26_iff]; simp [InvalidFields, ← opc, hop, -Nat.reducePow]
  case h_6 hop | h_7 hop => rw [exists_decodeI16_iff]; simp [InvalidFields, ← opc, hop, -Nat.reducePow]
  case h_10 hop => rw [exists_decodeT28_iff]; simp [InvalidFields, ← opc, hop, -Nat.reducePow]
  case h_12 =>
    have reserved : 0xB ≤ (opcodeOf w).toNat := by
      simp only [imp_false] at *
      omega
    have invalid : InvalidFields w := .inl (opc ▸ reserved)
    simp [invalid]
  all_goals
    rename_i hop
    rw [exists_decodeZ_iff]
    simp [InvalidFields, ← opc, hop, -Nat.reducePow]

theorem decodeOp_error_iff (w : OpWord) : (∃ e, decodeOp w = .error e) ↔ InvalidFields w := by
  rw [← not_iff_not, ← invalidVerdictExactly w]
  cases decodeOp w <;> simp

/-- Settles O1: each operation encodes to its word and is well-formed, so O2 decodes it; the five words have INVALID
fields. -/
theorem workedEncodingsDecode : Obligations.WorkedEncodingsDecode := by
  refine ⟨fun p hp => ?worked, fun w hw => ?invalid⟩
  case worked =>
    have word : encode p.2 = p.1 ∧ p.2.wellFormed = true := by
      revert p
      decide
    obtain ⟨henc, wf⟩ := word
    rw [← henc, decodeOfEncode p.2 wf]
    exact ⟨rfl, rfl⟩
  case invalid =>
    have fields : InvalidFields w := by
      simp only [List.mem_cons, List.not_mem_nil, or_false] at hw
      rcases hw with rfl | rfl | rfl | rfl | rfl <;> simp [InvalidFields]
    obtain ⟨e, he⟩ := (decodeOp_error_iff w).mpr fields
    rw [he]
    rfl

end Sys2Proof.Machine
end

section
/-! PROOF. A step by the word it takes (30_encoding.md R93 to R96): it runs the operation, or it marks the word as
refused; and the mark `REFUSED`, which nothing clears. -/

namespace Sys2Proof.Machine

/-! ### A step by its word -/

theorem step_of_ok {s : State} {w : OpWord} {rest : List OpWord} {i : Instr} (hs : s.stim = w :: rest)
    (hd : decodeOp w = .ok i) (go : stopBefore { s with stim := rest } (.ok i) = none) :
    step s = exec i { s with stim := rest } := by
  simp only [step, fetchWord, hs, hd, go]

theorem step_of_error {s : State} {w : OpWord} {rest : List OpWord} {e : Invalid} (hs : s.stim = w :: rest)
    (hd : decodeOp w = .error e) (go : stopInForce { s with stim := rest } = none) :
    step s = .next (refuseWord { s with stim := rest }) := by
  simp only [step, fetchWord, hs, hd, stopBefore, go]

/-- Settles O5: neither RESET nor any other word is stopped. -/
theorem stepRunsTheDecodedOperation : Obligations.StepRunsTheDecodedOperation := by
  intro s w rest i hs hd running releasing
  refine step_of_ok hs hd ?_
  by_cases hi : i = .reset
  · have legal : cfgLegal (cfgAtRelease { s with stim := rest }) = true := releasing hi
    subst hi
    simp [stopBefore, legal]
  · rw [stopBefore_of_ne_reset (by simpa using hi), stopInForce_none_iff]
    exact running hi

/-- Settles O6: the word decodes to no operation, and nothing stops the step. -/
theorem invalidWordOnlySetsRefused : Obligations.InvalidWordOnlySetsRefused := by
  intro s w rest hs legal live invalid
  obtain ⟨e, hd⟩ := (decodeOp_error_iff w).mpr invalid
  exact step_of_error hs hd ((stopInForce_none_iff _).mpr ⟨live, legal⟩)

/-- Settles O45: each unit-only operation is under `atUnitLevel`. -/
theorem unitOperationsRefusedAtBlock : Obligations.UnitOperationsRefusedAtBlock := by
  intro s i block only
  cases i with
  | decode | dupFilter | qPush | qPop => exact atUnitLevel_block _ block
  | _ => cases only

/-! ### The mark `REFUSED` -/

theorem Pushed.refused_eq {id : CardId} {s t : State} {r : PushResult} (h : Pushed id s t r) :
    t.refused = s.refused := by
  cases h with
  | stored | replaced | rejected => rfl

theorem Offered.refused_eq {id : CardId} {s t : State} {d : DupVerdict} (h : Offered id s t d) :
    t.refused = s.refused := by
  cases h with
  | dropped => rfl
  | passed fresh push => exact push.refused_eq

/-- An operation sets the mark or leaves it (30_encoding.md R95). -/
theorem Effect.refused_cases {s t : State} {i : Instr} (h : Effect s i t) :
    t.refused = true ∨ t.refused = s.refused := by
  cases h with
  | unitRefused => exact .inl rfl
  | completed full settled offer => exact .inr offer.refused_eq
  | filteredForward unit offer | filteredSuppress unit offer => exact .inr offer.refused_eq
  | pushedSuccess unit push | pushedFail unit push => exact .inr push.refused_eq
  | edgeRejected | edgeIgnored | edgeAppended | abandonIdle | abandoned | completeIdle | decoded | popEmpty | popEntry
  | schedIdle | schedEmpty | schedSent | ticked | reset => exact .inr rfl

/-- Settles O46, by the cases of a step. -/
theorem refusedIsNeverCleared : Obligations.RefusedIsNeverCleared := by
  intro s t h marked
  obtain ⟨-, -, -, rfl⟩ | ⟨w, rest, -, ⟨-, -, -, rfl⟩ | ⟨i, -, -, hexec⟩⟩ := step_next h
  · exact marked
  · rfl
  · exact (exec_effect hexec).refused_cases.elim id fun kept => kept.trans marked

end Sys2Proof.Machine
end

section
/-! PROOF. The message of an identifier (30_encoding.md R76). -/

namespace Sys2Proof.Machine

theorem message_length (id : CardId) : (message id).length = (decimalDigits 4 id.toNat).length + 2 := by
  simp [message]

/-- Settles O40: the digits are those of `decimalDigits`, at most five for a 16-bit value. -/
theorem messageIsDecimalLine : Obligations.MessageIsDecimalLine := by
  intro id
  have small : id.toNat < 10 ^ (4 + 1) := by have := id.isLt; omega
  obtain ⟨digits, value, leading, least, most⟩ := decimalDigits_spec 4 id.toNat small
  refine ⟨decimalDigits 4 id.toNat, rfl, digits, value, leading, ?_⟩
  rw [message_length]
  omega

end Sys2Proof.Machine
end

section
/-! PROOF. The operations of `FRAME` (30_encoding.md R72, R98), sent by edges that the filter accepts, fill the buffer
with the raw value, first bit most significant. -/

namespace Sys2Proof.Machine

/-- Nothing but the elements the capture unit and the environment's `TICK` write differs. -/
def CaptureTimeFrame (s t : State) : Prop :=
  t = { s with fbit := t.fbit, fcnt := t.fcnt, ageBit := t.ageBit, ageEdge := t.ageEdge, now := t.now,
               ageDup := t.ageDup, ageTx := t.ageTx }

theorem CaptureTimeFrame.trans {s t u : State} (first : CaptureTimeFrame s t) (second : CaptureTimeFrame t u) :
    CaptureTimeFrame s u := by
  unfold CaptureTimeFrame at first second ⊢
  rw [first] at second
  exact second

/-- The state after the last edges of `FRAME raw, sp`: a full frame that holds the last m + 1 bits of raw above the
bits that stood in it, m spaces later. -/
structure FrameFilled (raw : RawFrame) (sp : TickCount) (m : Nat) (s t : State) : Prop where
  full : t.fcnt = 26
  bits : ∀ k (h : k < 26), t.fbit[k] = if k + m < 25 then s.fbit[k] else raw.getLsbD (25 - k)
  ageBit : t.ageBit = 0
  ageEdge : t.ageEdge = 0
  now : t.now = s.now + m * sp.toNat
  frame : CaptureTimeFrame s t

/-- The state after an accepted edge of the bit b (40_edge_filter.md R102). -/
def afterEdge (b : Bool) (s : State) : State := appendBit b { s with ageEdge := 0 }

theorem exec_edgeOp {s : State} (b : Bool) (yes : edgeAccepted s = true) (room : s.fcnt.toNat < 26) :
    exec (edgeOp b) s = .next (afterEdge b s) := by
  have run : exec (edgeOp b) s = outcomeOf (edge b s) := by cases b <;> rfl
  rw [run, edge_appends yes (BitVec.lt_def.mpr room)]
  rfl

theorem afterEdge_fcnt {b : Bool} {s : State} (room : s.fcnt.toNat < 26) :
    (afterEdge b s).fcnt.toNat = s.fcnt.toNat + 1 := by
  have count : (afterEdge b s).fcnt = s.fcnt + 1 := rfl
  bv_omega

theorem afterEdge_getElem {b : Bool} {s : State} {k : Nat} (hk : k < 26) :
    (afterEdge b s).fbit[k] = if k = s.fcnt.toNat then b else s.fbit[k] := by
  simp only [afterEdge, appendBit_fbit, Vector.getElem_setIfInBounds, eq_comm]

/-- Where edges `sp` apart are beyond the dead time, the filter accepts the edge that follows a space. -/
theorem edgeAccepted_after_space {s : State} {sp : TickCount} (fresh : s.ageEdge = 0)
    (apart : s.cfg.deadtimeEn = false ∨ s.cfg.deadTimeUs.toNat < sp.toNat) :
    edgeAccepted (passTime sp.toNat s) = true := by
  refine (edgeAccepted_iff _).mpr (apart.imp id fun beyond => BitVec.lt_def.mpr ?_)
  have := sp.isLt
  rw [passTime_ageEdge, satAdd_toNat, fresh, passTime_cfg]
  simp [ageMax]
  omega

theorem frameFilled_of_last_bit {raw : RawFrame} {sp : TickCount} {s : State} (room : s.fcnt.toNat = 25) :
    FrameFilled raw sp 0 s (afterEdge (raw.getLsbD 0) s) where
  full := by
    apply BitVec.eq_of_toNat_eq
    rw [afterEdge_fcnt (by omega), room]
    rfl
  bits k hk := by
    rw [afterEdge_getElem hk, room]
    obtain old | new : k < 25 ∨ k = 25 := by omega
    · rw [if_neg (by omega), if_pos (by omega)]
    · rw [if_pos new, if_neg (by omega), new]
  ageBit := rfl
  ageEdge := rfl
  now := by rw [Nat.zero_mul]; rfl
  frame := rfl

/-- One edge and one space before the last m + 1 edges. -/
theorem FrameFilled.of_edge_and_space {raw : RawFrame} {sp : TickCount} {m : Nat} {s t : State}
    (room : s.fcnt.toNat + (m + 1) = 25)
    (h : FrameFilled raw sp m (passTime sp.toNat (afterEdge (raw.getLsbD (m + 1)) s)) t) :
    FrameFilled raw sp (m + 1) s t where
  full := h.full
  bits k hk := by
    rw [h.bits k hk]
    simp only [passTime_fbit]
    rw [afterEdge_getElem hk]
    obtain old | new | later : k < s.fcnt.toNat ∨ k = s.fcnt.toNat ∨ s.fcnt.toNat < k := by omega
    · rw [if_pos (by omega), if_neg (by omega), if_pos (by omega)]
    · rw [if_pos (by omega), if_pos new, if_neg (by omega), show 25 - k = m + 1 by omega]
    · rw [if_neg (by omega), if_neg (by omega)]
  ageBit := h.ageBit
  ageEdge := h.ageEdge
  now := by
    have start : (afterEdge (raw.getLsbD (m + 1)) s).now = s.now := rfl
    rw [h.now, passTime_now, start]
    ring
  frame := CaptureTimeFrame.trans (t := passTime sp.toNat (afterEdge (raw.getLsbD (m + 1)) s)) rfl h.frame

/-- The last m + 1 edges of `FRAME`, with room for exactly as many bits, fill the frame. -/
theorem runOps_frameFrom {raw : RawFrame} {sp : TickCount} (m : Nat) {s : State} (room : s.fcnt.toNat + m = 25)
    (yes : edgeAccepted s = true) (apart : s.cfg.deadtimeEn = false ∨ s.cfg.deadTimeUs.toNat < sp.toNat) :
    ∃ t, runOps (frameFrom raw sp (m + 1)) s = .next t ∧ FrameFilled raw sp m s t := by
  induction m generalizing s with
  | zero => exact ⟨_, runOps_cons_next _ (exec_edgeOp _ yes (by omega)), frameFilled_of_last_bit room⟩
  | succ m ih =>
    have first := exec_edgeOp (raw.getLsbD (m + 1)) yes (by omega)
    have room' : (afterEdge (raw.getLsbD (m + 1)) s).fcnt.toNat + m = 25 := by
      rw [afterEdge_fcnt (by omega)]
      omega
    have yes' := edgeAccepted_after_space (s := afterEdge (raw.getLsbD (m + 1)) s) rfl apart
    obtain ⟨t, run, filled⟩ := ih (s := passTime sp.toNat (afterEdge (raw.getLsbD (m + 1)) s)) room' yes' apart
    refine ⟨t, ?_, .of_edge_and_space room filled⟩
    rw [frameFrom, runOps_cons_next _ first, runOps_cons_next _ rfl]
    exact run

/-- Settles O14: the 26 edges into an empty buffer, by `runOps_frameFrom`. -/
theorem frameIsCapturedMostSignificantFirst : Obligations.FrameIsCapturedMostSignificantFirst := by
  intro s raw sp _ vacant passes
  have yes : edgeAccepted s = true := (edgeAccepted_iff s).mpr (passes.imp id And.left)
  obtain ⟨t, run, filled⟩ := runOps_frameFrom (raw := raw) 25 (by simp [vacant]) yes (passes.imp id And.right)
  refine ⟨t, run, filled.full, fun k hk => ?_, filled.ageBit, filled.ageEdge, filled.now, filled.frame⟩
  rw [filled.bits k hk, if_neg (by omega)]

end Sys2Proof.Machine
end

section
/-! PROOF. The Edge Filter (40_edge_filter.md R101 to R106): what an edge does by its decision, and that nothing but an
accepted edge or RESET makes the last accepted edge younger, so that no edge passes within the dead time. -/

namespace Sys2Proof.Machine

/-! ### An edge by the filter's decision -/

theorem edgeAccepted_eq_false_iff (s : State) :
    edgeAccepted s = false ↔ s.cfg.deadtimeEn = true ∧ s.ageEdge ≤ s.cfg.deadTimeUs := by
  rw [← Bool.not_eq_true, edgeAccepted_iff, not_or, Bool.not_eq_false, BitVec.not_lt]

theorem EdgeOf.exec_eq {i : Instr} {b : Bool} (line : EdgeOf i b) (s : State) :
    exec i s = outcomeOf (edge b s) := by
  cases line with
  | d0 => exact exec_edgeD0_eq s
  | d1 => exact exec_edgeD1_eq s

theorem EdgeOf.exec_rejected {i : Instr} {b : Bool} {s : State} (line : EdgeOf i b) (no : edgeAccepted s = false) :
    exec i s = .next s := by
  rw [line.exec_eq]
  simp [edge, no, outcomeOf]

theorem EdgeOf.exec_full {i : Instr} {b : Bool} {s : State} (line : EdgeOf i b) (yes : edgeAccepted s = true)
    (full : s.fcnt = 26) : exec i s = .next { s with ageEdge := 0 } := by
  rw [line.exec_eq]
  simp [edge, yes, (frameState_full_iff s).mpr full, outcomeOf]

theorem EdgeOf.exec_appends {i : Instr} {b : Bool} {s : State} (line : EdgeOf i b) (yes : edgeAccepted s = true)
    (room : s.fcnt < 26) : exec i s = .next (afterEdge b s) := by
  rw [line.exec_eq, edge_appends yes room]
  rfl

/-- Settles O10: each decision of the filter, and for an accepted edge each side of a full frame. -/
theorem edgeFilterAndAppend : Obligations.EdgeFilterAndAppend := by
  intro s i b lines
  have line : EdgeOf i b := by
    obtain ⟨rfl, rfl⟩ | ⟨rfl, rfl⟩ := lines
    · exact .d0
    · exact .d1
  refine ⟨fun within => line.exec_rejected ((edgeAccepted_eq_false_iff s).mpr within), fun passes => ?accepted⟩
  have yes := (edgeAccepted_iff s).mpr passes
  refine ⟨line.exec_full yes, fun room => ⟨afterEdge b s, line.exec_appends yes room, ?count, ?bits, rfl⟩⟩
  case count => exact afterEdge_fcnt (BitVec.lt_def.mp room)
  case bits => exact fun k hk => afterEdge_getElem hk

/-! ### Within the dead time -/

/-- The filter is on and n microseconds from now the last accepted edge is still no older than the dead time. -/
def WithinDeadTime (n : Nat) (s : State) : Prop :=
  s.cfg.deadtimeEn = true ∧ s.ageEdge.toNat + n ≤ s.cfg.deadTimeUs.toNat

theorem WithinDeadTime.rejected {n : Nat} {s : State} (h : WithinDeadTime n s) : edgeAccepted s = false := by
  obtain ⟨on, young⟩ := h
  exact (edgeAccepted_eq_false_iff s).mpr ⟨on, BitVec.le_def.mpr (by omega)⟩

/-- Within the dead time `age_edge` does not saturate. -/
theorem WithinDeadTime.satAdd_toNat {n : Nat} {s : State} (h : WithinDeadTime n s) :
    (satAdd s.ageEdge n).toNat = s.ageEdge.toNat + n := by
  obtain ⟨-, young⟩ := h
  have := s.cfg.deadTimeUs.isLt
  rw [Machine.satAdd_toNat, ageMax]
  omega

theorem WithinDeadTime.mono {m n : Nat} {s : State} (h : WithinDeadTime n s) (le : m ≤ n) : WithinDeadTime m s :=
  h.imp_right fun young => by omega

/-- Once the first m of m + n microseconds have passed, n are left. -/
theorem WithinDeadTime.after {m n : Nat} {s t : State} (h : WithinDeadTime (m + n) s) (cfg : t.cfg = s.cfg)
    (age : t.ageEdge = satAdd s.ageEdge m) : WithinDeadTime n t := by
  have passed := (h.mono (Nat.le_add_right m n)).satAdd_toNat
  obtain ⟨on, young⟩ := h
  rw [WithinDeadTime, cfg, age, passed]
  exact ⟨on, by omega⟩

/-- Within the dead time an edge or a tick only lets its time pass, and for an edge that is none. -/
theorem exec_bounce {i : Instr} {s : State} (bounce : i = .edgeD0 ∨ i = .edgeD1 ∨ ∃ n, i = .tick n)
    (no : edgeAccepted s = false) : exec i s = .next (passTime (microsOf i) s) := by
  obtain rfl | rfl | ⟨n, rfl⟩ := bounce
  · rw [EdgeOf.d0.exec_rejected no, microsOf, passTime_zero]
  · rw [EdgeOf.d1.exec_rejected no, microsOf, passTime_zero]
  · rfl

/-- Settles O11, by induction on the burst: each operation lets its time pass and leaves the rest of the dead time. -/
theorem bouncesWithinDeadTimeChangeNothing : Obligations.BouncesWithinDeadTimeChangeNothing := by
  intro s ops on bounces young
  have within : WithinDeadTime (elapsed ops) s := ⟨on, young⟩
  clear on young
  induction ops generalizing s with
  | nil => simp
  | cons i is ih =>
    obtain ⟨bounce, bounces⟩ := List.forall_mem_cons.mp bounces
    rw [elapsed_cons] at within ⊢
    have left : WithinDeadTime (elapsed is) (passTime (microsOf i) s) := within.after rfl rfl
    rw [runOps_cons_next is (exec_bounce bounce within.rejected), ih _ bounces left, passTime_passTime]

/-! ### The age of the last accepted edge under the other operations -/

theorem AgentFrame.ageEdge_eq {a : Agent} {s t : State} (h : AgentFrame a s t) (polls : a = .poll ∨ a = .scheduler) :
    t.ageEdge = s.ageEdge := by
  obtain rfl | rfl := polls <;> rw [show t = _ from h]

/-- While the filter rejects, no operation but RESET changes `age_edge` but by the time it takes. -/
theorem exec_ages_edge {i : Instr} {s t : State} (hi : i ≠ .reset) (no : edgeAccepted s = false)
    (h : exec i s = .next t) : t.ageEdge = satAdd s.ageEdge (microsOf i) := by
  cases i with
  | edgeD0 | edgeD1 | tick =>
    rw [exec_bounce (by simp) no] at h
    cases h
    rfl
  | reset => exact absurd rfl hi
  | pollAbandon | pollComplete | decode | dupFilter | qPush | qPop | schedPoll =>
    rw [microsOf, satAdd_zero]
    exact (exec_effect h).agentFrame.ageEdge_eq (by simp [Instr.agent])

/-- A run without RESET that stays within the dead time ages the last accepted edge by the time it takes. -/
theorem runOps_ages_edge {ops : List Instr} {s t : State} (noReset : .reset ∉ ops)
    (within : WithinDeadTime (elapsed ops) s) (h : runOps ops s = .next t) :
    t.cfg = s.cfg ∧ t.ageEdge = satAdd s.ageEdge (elapsed ops) := by
  induction ops generalizing s with
  | nil => cases h; simp
  | cons i is ih =>
    obtain ⟨hi, noReset⟩ := List.ne_and_not_mem_of_not_mem_cons noReset
    obtain ⟨u, first, rest⟩ := runOps_cons h
    obtain ⟨-, cfg, -⟩ := exec_keeps_config hi.symm first
    have age := exec_ages_edge hi.symm within.rejected first
    rw [elapsed_cons] at within ⊢
    obtain ⟨cfg', age'⟩ := ih noReset (within.after cfg age) rest
    exact ⟨cfg'.trans cfg, by rw [age', age, satAdd_satAdd]⟩

/-- Settles O12: after such a run the dead time is not over, and the filter rejects on both lines. -/
theorem acceptedEdgesAreSeparated : Obligations.AcceptedEdgesAreSeparated := by
  intro s t ops on noReset young h
  have within : WithinDeadTime (elapsed ops) s := ⟨on, young⟩
  obtain ⟨cfg, age⟩ := runOps_ages_edge noReset within h
  have no : edgeAccepted t = false := (within.after (n := 0) cfg age).rejected
  exact ⟨by rw [age, within.satAdd_toNat], EdgeOf.d0.exec_rejected no, EdgeOf.d1.exec_rejected no⟩

end Sys2Proof.Machine
end

section
/-! PROOF. The two checks of the Frame Assembler by the frame they find (41_frame_assembler.md R121, R124): a stale
partial frame is dropped, a settled full one is offered to the Duplicate Suppressor and the Tag Queue, any other is
left alone; and the only ways the frame count changes (R128). -/

namespace Sys2Proof.Machine

/-! ### POLL_ABANDON -/

theorem pollAbandon_drops {s : State} (begun : 0 < s.fcnt) (few : s.fcnt < 26)
    (stale : s.cfg.partialTimeoutUs < s.ageBit) :
    exec .pollAbandon s = .next (raise .captureError none (clearFrame s)) := by
  simp [exec, execPollAbandon, (frameState_filling_iff s).mpr ⟨begun, few⟩, BitVec.lt_def.mp stale]

theorem pollAbandon_waits {s : State} (few : s.fcnt < 26) (young : s.ageBit ≤ s.cfg.partialTimeoutUs) :
    exec .pollAbandon s = .next s := by
  obtain vacant | begun : s.fcnt = 0 ∨ 0 < s.fcnt := by bv_omega
  · exact pollAbandon_idle (.inl vacant)
  · have early : ¬ s.cfg.partialTimeoutUs.toNat < s.ageBit.toNat := Nat.not_lt.mpr (BitVec.le_def.mp young)
    simp [exec, execPollAbandon, (frameState_filling_iff s).mpr ⟨begun, few⟩, early]

/-- Settles O15, by the state of the frame and, while it is FILLING, its age. -/
theorem pollAbandonDropsStaleFrame : Obligations.PollAbandonDropsStaleFrame := by
  intro s
  have word : encode .pollAbandon = 0x20000000 := by decide
  refine ⟨pollAbandon_drops, ?idle, word, word ▸ decodeOfEncode .pollAbandon rfl⟩
  case idle =>
    rintro (vacant | full | ⟨few, young⟩)
    · exact pollAbandon_idle (.inl vacant)
    · exact pollAbandon_idle (.inr full)
    · exact pollAbandon_waits few young

/-! ### POLL_COMPLETE -/

theorem pollComplete_waits {s : State} (full : s.fcnt = 26) (unsettled : s.ageBit ≤ s.cfg.gapUs) :
    exec .pollComplete s = .next s := by
  have early : ¬ s.cfg.gapUs.toNat < s.ageBit.toNat := Nat.not_lt.mpr (BitVec.le_def.mp unsettled)
  simp [exec, execPollComplete, (frameState_full_iff s).mpr full, early]

/-- Settles O16: a partial frame is idle whatever its age, a full one up to the gap. -/
theorem pollCompleteWaitsForSettledFrame : Obligations.PollCompleteWaitsForSettledFrame := by
  rintro s (few | ⟨full, unsettled⟩)
  · exact pollComplete_idle few
  · exact pollComplete_waits full unsettled

/-- A full frame that holds raw, its last bit longer ago than the gap (41_frame_assembler.md R124). -/
structure SettledFrame (raw : RawFrame) (s : State) : Prop where
  bits : ∀ k (h : k < 26), s.fbit[k] = raw.getLsbD (25 - k)
  full : s.fcnt = 26
  settled : s.cfg.gapUs < s.ageBit

/-- A settled frame is consumed, and its identifier raw[16:1] is offered to the Duplicate Suppressor. -/
theorem SettledFrame.exec_eq {raw : RawFrame} {s t : State} {d : DupVerdict} (h : SettledFrame raw s)
    (offered : offer (raw.extractLsb' 1 16) (clearFrame s) = .ok (t, d)) : exec .pollComplete s = .next t := by
  have id_eq : decodeId (frameRaw s.fbit) = raw.extractLsb' 1 16 := by
    rw [frameRaw_of_bits s.fbit raw h.bits, decodeId_eq_extract]
  simp [exec, execPollComplete, (frameState_full_iff s).mpr h.full, BitVec.lt_def.mp h.settled, id_eq, offered]

/-- A settled frame whose identifier is not suppressed leaves what the push of that identifier leaves. -/
theorem SettledFrame.exec_forwarded {raw : RawFrame} {s t : State} {r : PushResult} (h : SettledFrame raw s)
    (fresh : s.dupValid = false ∨ s.dupId ≠ raw.extractLsb' 1 16 ∨ s.cfg.dupWindowUs ≤ s.ageDup)
    (pushed : push (raw.extractLsb' 1 16) (noteForward (raw.extractLsb' 1 16) (clearFrame s)) = .ok (t, r)) :
    exec .pollComplete s = .next t :=
  h.exec_eq (offer_forwarded ((not_suppressed_iff _ (clearFrame s)).mpr fresh) pushed)

/-- Settles O17: the offer of a suppressed identifier changes nothing after the buffer is cleared. -/
theorem pollCompleteDropsDuplicate : Obligations.PollCompleteDropsDuplicate := by
  intro s raw bits full settled valid last within
  have frame : SettledFrame raw s := ⟨bits, full, settled⟩
  exact frame.exec_eq (offer_suppressed ((suppressed_iff _ (clearFrame s)).mpr ⟨valid, last, within⟩))

/-- Settles O18: the push finds room. -/
theorem pollCompleteEnqueues : Obligations.PollCompleteEnqueues := by
  rintro s raw _ bits rfl full settled fresh room head
  have frame : SettledFrame raw s := ⟨bits, full, settled⟩
  exact frame.exec_forwarded fresh (push_with_room room head)

/-- A push into a queue of exactly N entries under `DROP_OLDEST` leaves the count as it is (44_queue.md R162). -/
theorem push_replaces_oldest {id : CardId} {s : State} (policy : s.cfg.overflowPolicy = .dropOldest)
    (count : s.qCount = s.cfg.cap) (head : s.qHead < s.cfg.cap) (tail : s.qTail < s.cfg.cap) :
    push id s = .ok
      ({ s with q := Memory.write s.q s.qHead id, qHead := adv s.cfg s.qHead, qTail := adv s.cfg s.qTail,
                ev := s.ev ++ [⟨.evict, some (slotValue s s.qTail)⟩, ⟨.captureSuccess, some id⟩] }, .success) := by
  have held : 0 < s.qCount := by omega
  rw [push_evicting count.ge policy head tail]
  simp [afterInsert, afterEvict, Nat.sub_add_cancel held]

/-- Settles O19: the push replaces the oldest entry of the full queue. -/
theorem pollCompleteEvictsOldest : Obligations.PollCompleteEvictsOldest := by
  rintro s raw _ bits rfl full settled fresh policy count head tail
  have frame : SettledFrame raw s := ⟨bits, full, settled⟩
  exact frame.exec_forwarded fresh (push_replaces_oldest policy count head tail)

/-- Settles O20: the push is rejected, after the duplicate state took the identifier. -/
theorem pollCompleteRejectedAtFullQueue : Obligations.PollCompleteRejectedAtFullQueue := by
  rintro s raw _ bits rfl full settled fresh policy count
  have frame : SettledFrame raw s := ⟨bits, full, settled⟩
  exact frame.exec_forwarded fresh (push_rejected count.ge policy)

/-! ### The frame count -/

theorem EdgeOf.isEdge {i : Instr} {b : Bool} (line : EdgeOf i b) : i = .edgeD0 ∨ i = .edgeD1 := by
  cases line with
  | d0 => exact .inl rfl
  | d1 => exact .inr rfl

/-- Settles O22, by the effects: those that write the count are an appended bit, the two clearings and RESET. -/
theorem frameCountTransitions : Obligations.FrameCountTransitions := by
  intro s t i h
  cases exec_effect h with
  | edgeAppended line yes room => exact .inr (.inl ⟨line.isEdge, room, afterEdge_fcnt (BitVec.lt_def.mp room)⟩)
  | abandoned begun few stale => exact .inr (.inr (.inl ⟨rfl, begun, few, stale, rfl⟩))
  | completed full settled offer => exact .inr (.inr (.inr (.inl ⟨rfl, full, settled, offer.fcnt_eq⟩)))
  | reset => exact .inr (.inr (.inr (.inr ⟨rfl, rfl⟩)))
  | filteredForward unit offer | filteredSuppress unit offer => exact .inl offer.fcnt_eq
  | pushedSuccess unit push | pushedFail unit push => exact .inl push.fcnt_eq
  | edgeRejected | edgeIgnored | abandonIdle | completeIdle | unitRefused | decoded | popEmpty | popEntry | schedIdle
  | schedEmpty | schedSent | ticked => exact .inl rfl

end Sys2Proof.Machine
end

section
/-! PROOF. The Decoder (42_decoder.md R140, R141, R143): the identifier is the field raw[16:1] of the frame, with one
bit below it and the facility byte and the leading bit above. -/

namespace Sys2Proof.Machine

/-- Settles O24: at level UNIT the operation is admitted, and it records the bits raw[16:1]. -/
theorem decodeGivesIdentifierBits : Obligations.DecodeGivesIdentifierBits := by
  intro s raw unit
  rw [← decodeId_eq_extract]
  exact atUnitLevel_unit _ unit

/-- Settles O25: the shift drops the trailing bit, and the identifier is then the low field. -/
theorem decoderRoundTrip : Obligations.DecoderRoundTrip := by
  intro p25 f id p0
  calc decodeId (p25 ++ f ++ id ++ p0)
      = (p25 ++ f ++ id ++ p0).extractLsb' 1 16 := decodeId_eq_extract _
    _ = (p25 ++ f ++ id).extractLsb' 0 16 := BitVec.extractLsb'_append_eq_of_le le_rfl
    _ = id := BitVec.extractLsb'_append_eq_right

end Sys2Proof.Machine
end

section
/-! PROOF. The Duplicate Suppressor (43_dup_filter.md R150 to R155): what DUP_FILTER does by the verdict of the check,
that sightings within the window leave its age to time alone, and that a window of 0 suppresses nothing. -/

namespace Sys2Proof.Machine

/-! ### DUP_FILTER by the verdict -/

/-- At level UNIT the verdict of the check joins `RES`, and the rest is what the offer leaves. -/
theorem dupFilter_suppressed {id : CardId} {s : State} (unit : s.level = .unit) (repeated : suppressed id s = true) :
    exec (.dupFilter id) s = .next (recordResult .suppress s) := by
  simp [exec, execDupFilter, atUnitLevel_unit _ unit, offer_suppressed repeated]

theorem dupFilter_forwarded {id : CardId} {s t : State} {r : PushResult} (unit : s.level = .unit)
    (fresh : suppressed id s = false) (pushed : push id (noteForward id s) = .ok (t, r)) :
    exec (.dupFilter id) s = .next (recordResult .forward t) := by
  simp [exec, execDupFilter, atUnitLevel_unit _ unit, offer_forwarded fresh pushed]

/-- Settles O26: the check suppresses the identifier, and only its verdict is recorded. -/
theorem dupFilterSuppresses : Obligations.DupFilterSuppresses := by
  intro s id unit valid last within
  exact dupFilter_suppressed unit ((suppressed_iff id s).mpr ⟨valid, last, within⟩)

/-- Settles O27, by what the push finds once the duplicate state has taken the identifier: room, a full queue that
evicts, or a full queue that rejects. -/
theorem dupFilterForwards : Obligations.DupFilterForwards := by
  intro s id unit ground
  have fresh : suppressed id s = false := (not_suppressed_iff id s).mpr ground
  refine ⟨?room, ?evicting, ?rejecting⟩
  case room =>
    intro room head
    exact dupFilter_forwarded unit fresh (push_with_room room head)
  case evicting =>
    intro count policy head tail
    exact dupFilter_forwarded unit fresh (push_replaces_oldest policy count head tail)
  case rejecting =>
    intro count policy
    exact dupFilter_forwarded unit fresh (push_rejected count.ge policy)

/-! ### Sightings within the window -/

/-- The last forwarded identifier is `id`, and n microseconds from now its window is still not over. -/
structure WithinDupWindow (id : CardId) (n : Nat) (s : State) : Prop where
  unit : s.level = .unit
  valid : s.dupValid = true
  last : s.dupId = id
  young : s.ageDup.toNat + n < s.cfg.dupWindowUs.toNat

theorem WithinDupWindow.suppressed {id : CardId} {n : Nat} {s : State} (h : WithinDupWindow id n s) :
    suppressed id s = true :=
  (suppressed_iff id s).mpr ⟨h.valid, h.last, BitVec.lt_def.mpr (Nat.lt_of_add_right_lt h.young)⟩

/-- What n microseconds and k suppressed sightings leave: time has passed, and `RES` has one SUPPRESS for each. -/
def afterSightings (n k : Nat) (s : State) : State :=
  { passTime n s with res := s.res ++ List.replicate k .suppress }

@[simp] theorem afterSightings_none (s : State) : afterSightings 0 0 s = s := by simp [afterSightings]

theorem afterSightings_tick (n : Nat) (s : State) : afterSightings n 0 s = passTime n s := by
  simp [afterSightings, passTime]

theorem afterSightings_sighting (s : State) : afterSightings 0 1 s = recordResult .suppress s := by
  simp [afterSightings, recordResult]

theorem afterSightings_afterSightings (m n j k : Nat) (s : State) :
    afterSightings n k (afterSightings m j s) = afterSightings (m + n) (j + k) s := by
  simp [afterSightings, passTime, satAdd_satAdd, Nat.add_assoc]

/-- Once the first m of m + n microseconds have passed, n are left, whatever was sighted meanwhile: a sighting does not
restart the age. -/
theorem WithinDupWindow.after {id : CardId} {m n : Nat} {s : State} (h : WithinDupWindow id (m + n) s) (k : Nat) :
    WithinDupWindow id n (afterSightings m k s) where
  unit := h.unit
  valid := h.valid
  last := h.last
  young := by
    have aged : (satAdd s.ageDup m).toNat ≤ s.ageDup.toNat + m := satAdd_toNat _ _ ▸ Nat.min_le_left _ _
    have young := h.young
    change (satAdd s.ageDup m).toNat + n < s.cfg.dupWindowUs.toNat
    omega

/-- Within the window a sighting of the last forwarded identifier or a tick lets its time pass and records its SUPPRESS,
if it has one. -/
theorem WithinDupWindow.exec_eq {id : CardId} {n : Nat} {s : State} {i : Instr} (h : WithinDupWindow id n s)
    (sighting : i = .dupFilter id ∨ ∃ k, i = .tick k) :
    exec i s = .next (afterSightings (microsOf i) (List.count (.dupFilter id) [i]) s) := by
  obtain rfl | ⟨k, rfl⟩ := sighting
  · rw [dupFilter_suppressed h.unit h.suppressed, microsOf, List.count_singleton_self, afterSightings_sighting]
  · have other : List.count (.dupFilter id) [Instr.tick k] = 0 := List.count_eq_zero.mpr (by simp)
    rw [other, afterSightings_tick]
    rfl

/-- Settles O28, by induction on the list: each operation leaves the rest of the window to those after it. -/
theorem repeatSightingsDoNotRestartWindow : Obligations.RepeatSightingsDoNotRestartWindow := by
  intro s id ops unit valid last sightings young
  have within : WithinDupWindow id (elapsed ops) s := ⟨unit, valid, last, young⟩
  clear unit valid last young
  change runOps ops s = .next (afterSightings (elapsed ops) (ops.count (.dupFilter id)) s)
  induction ops generalizing s with
  | nil => simp
  | cons i is ih =>
    obtain ⟨sighting, sightings⟩ := List.forall_mem_cons.mp sightings
    have counted : List.count (.dupFilter id) (i :: is) = List.count (.dupFilter id) [i] + is.count (.dupFilter id) :=
      List.count_append (l₁ := [i])
    rw [elapsed_cons] at within ⊢
    rw [runOps_cons_next is (within.exec_eq sighting), ih _ sightings (within.after _), afterSightings_afterSightings,
      counted]

/-! ### A window of 0 -/

theorem not_suppressed_of_zero_window {s : State} (zero : s.cfg.dupWindowUs = 0) (id : CardId) :
    suppressed id s = false :=
  (not_suppressed_iff id s).mpr (.inr (.inr (BitVec.le_def.mpr (by simp [zero]))))

/-- With a window of 0 an offer is always forwarded, and pushed (43_dup_filter.md R155). -/
theorem Offered.of_zero_window {id : CardId} {s t : State} {d : DupVerdict} (h : Offered id s t d)
    (zero : s.cfg.dupWindowUs = 0) : d = .forward ∧ ∃ r, Pushed id (noteForward id s) t r := by
  cases h with
  | dropped repeated => rw [not_suppressed_of_zero_window zero] at repeated; cases repeated
  | passed fresh push => exact ⟨rfl, _, push⟩

/-- A push leaves the duplicate state and `RES` alone. -/
theorem Pushed.dup_res_eq {id : CardId} {s t : State} {r : PushResult} (h : Pushed id s t r) :
    t.dupValid = s.dupValid ∧ t.dupId = s.dupId ∧ t.ageDup = s.ageDup ∧ t.res = s.res := by
  cases h with
  | stored | replaced | rejected => exact ⟨rfl, rfl, rfl, rfl⟩

/-- A push raises the events of one of its three outcomes (60_exceptions.md R213). -/
theorem Pushed.events {id : CardId} {s t : State} {r : PushResult} (h : Pushed id s t r) :
    ∃ es, PushEvents es ∧ t.ev = s.ev ++ es := by
  cases h with
  | stored => exact ⟨_, .inl ⟨id, rfl⟩, rfl⟩
  | replaced => exact ⟨_, .inr (.inl ⟨_, id, rfl⟩), List.append_assoc ..⟩
  | rejected => exact ⟨_, .inr (.inr ⟨id, rfl⟩), rfl⟩

/-- POLL_COMPLETE of a settled full frame offers its identifier; it is never idle. -/
theorem pollComplete_offers {s t : State} (full : s.fcnt = 26) (settled : s.cfg.gapUs < s.ageBit)
    (h : exec .pollComplete s = .next t) : ∃ d, Offered (decodeId (frameRaw s.fbit)) (clearFrame s) t d := by
  simp only [exec, execPollComplete, (frameState_full_iff s).mpr full, BitVec.lt_def.mp settled, if_true] at h
  split at h <;> cases h
  exact ⟨_, offered_of_offer ‹_›⟩

/-- Settles O29, by the offer that each of the two operations makes, which a window of 0 forwards. -/
theorem zeroWindowSuppressesNothing : Obligations.ZeroWindowSuppressesNothing := by
  intro s t zero
  refine ⟨?dupFilter, ?pollComplete⟩
  case dupFilter =>
    intro id unit h
    obtain ⟨-, u, ⟨offered, rfl⟩ | ⟨offered, rfl⟩⟩ | ⟨block, -⟩ := exec_dupFilter_next h
    · obtain ⟨-, r, push⟩ := (offered_of_offer offered).of_zero_window zero
      obtain ⟨valid, last, age, res⟩ := push.dup_res_eq
      exact ⟨by rw [recordResult_res, res, noteForward_res], last, valid, age⟩
    · obtain ⟨verdict, -⟩ := (offered_of_offer offered).of_zero_window zero
      cases verdict
    · rw [unit] at block
      cases block
  case pollComplete =>
    intro full settled h
    obtain ⟨d, offer⟩ := pollComplete_offers full settled h
    obtain ⟨-, r, push⟩ := offer.of_zero_window zero
    obtain ⟨valid, -, age, -⟩ := push.dup_res_eq
    exact ⟨valid, age, push.events⟩

end Sys2Proof.Machine
end

section
/-! PROOF. The Tag Queue one operation at a time (44_queue.md R160 to R168): what Q_PUSH and Q_POP leave at level
UNIT, and Q_POP read through the content. -/

namespace Sys2Proof.Machine

/-! ### Q_PUSH -/

/-- At level UNIT the result of a push joins `RES`, and the rest is what the push leaves (44_queue.md R167). -/
theorem qPush_succeeds {id : CardId} {s t : State} (unit : s.level = .unit) (pushed : push id s = .ok (t, .success)) :
    exec (.qPush id) s = .next (recordResult .success t) := by
  simp [exec, execQPush, atUnitLevel_unit _ unit, pushed]

theorem qPush_fails {id : CardId} {s t : State} (unit : s.level = .unit) (pushed : push id s = .ok (t, .fail)) :
    exec (.qPush id) s = .next (recordResult .fail t) := by
  simp [exec, execQPush, atUnitLevel_unit _ unit, pushed]

/-- Settles O30, by what the push finds: room, a full queue that evicts, or a full queue that rejects. -/
theorem qPushStoresEvictsOrRejects : Obligations.QPushStoresEvictsOrRejects := by
  intro s id unit
  refine ⟨?room, ?evicting, ?rejecting⟩
  case room =>
    intro room head
    exact qPush_succeeds unit (push_with_room room head)
  case evicting =>
    intro count policy head tail
    exact qPush_succeeds unit (push_replaces_oldest policy count head tail)
  case rejecting =>
    intro count policy
    exact qPush_fails unit (push_rejected count.ge policy)

/-- At level UNIT a Q_PUSH is a push, with its result recorded. -/
theorem qPush_next {id : CardId} {s t : State} (unit : s.level = .unit) (h : exec (.qPush id) s = .next t) :
    ∃ u r x, Pushed id s u r ∧ t = recordResult x u := by
  obtain ⟨-, u, ⟨pushed, rfl⟩ | ⟨pushed, rfl⟩⟩ | ⟨block, -⟩ := exec_qPush_next h
  · exact ⟨u, _, _, pushed_of_push pushed, rfl⟩
  · exact ⟨u, _, _, pushed_of_push pushed, rfl⟩
  · rw [unit] at block
    cases block

/-! ### Q_POP -/

theorem qPop_empty {s : State} (unit : s.level = .unit) (vacant : s.qCount = 0) :
    exec .qPop s = .next (recordResult .empty s) := by
  simp [exec, execQPop, atUnitLevel_unit _ unit, pop_empty vacant]

theorem qPop_entry {s : State} (unit : s.level = .unit) (held : 0 < s.qCount) (tail : s.qTail < s.cfg.cap) :
    exec .qPop s = .next (recordResult (.value (slotValue s s.qTail)) (afterPop s)) := by
  simp [exec, execQPop, atUnitLevel_unit _ unit, pop_entry held tail]

/-- Settles O31, by whether the queue holds an entry. -/
theorem qPopReturnsOldest : Obligations.QPopReturnsOldest := by
  intro s unit
  exact ⟨qPop_empty unit, qPop_entry unit⟩

/-! ### The queue read through its content -/

@[simp] theorem content_recordResult (r : UnitResult) (s : State) : content (recordResult r s) = content s := rfl

/-- The invariant's queue seen from its content: a first entry is what the tail's slot holds, and taking it leaves the
others. -/
theorem oldest_of_content_cons {s : State} {v : CardId} {rest : List CardId} (hs : Invariant s)
    (hc : content s = v :: rest) : 0 < s.qCount ∧ slotValue s s.qTail = v ∧ content (afterPop s) = rest := by
  have held : 0 < s.qCount := by rw [← content_length, hc]; exact Nat.succ_pos _
  have cons : v :: rest = slotValue s s.qTail :: content (afterPop s) := hc.symm.trans (content_afterPop hs held)
  obtain ⟨oldest, others⟩ := List.cons.inj cons
  exact ⟨held, oldest.symm, others.symm⟩

/-- Q_POP returns the first entry of the content. -/
theorem qPop_of_content_cons {s : State} {v : CardId} {rest : List CardId} (hs : Invariant s) (unit : s.level = .unit)
    (hc : content s = v :: rest) : exec .qPop s = .next (recordResult (.value v) (afterPop s)) := by
  obtain ⟨held, rfl, -⟩ := oldest_of_content_cons hs hc
  exact qPop_entry unit held hs.tail

/-- Q_POP returns EMPTY where the content is empty. -/
theorem qPop_of_content_nil {s : State} (unit : s.level = .unit) (hc : content s = []) :
    exec .qPop s = .next (recordResult .empty s) :=
  qPop_empty unit (by rw [← content_length, hc, List.length_nil])

end Sys2Proof.Machine
end

section
/-! PROOF. The order of the queue (44_queue.md R169). Every operation keeps an account of the queue: what entered joins
the content at its end, and what left is taken from its front and reported. Only RESET and `Q_POP` shorten the content
without a report. -/

namespace Sys2Proof.Machine

@[simp] theorem capturedIds_append (es fs : List Event) :
    capturedIds (es ++ fs) = capturedIds es ++ capturedIds fs := List.filterMap_append

@[simp] theorem departedIds_append (es fs : List Event) :
    departedIds (es ++ fs) = departedIds es ++ departedIds fs := List.filterMap_append

/-- Between two states some identifiers have entered the queue and some have left it, all of them reported, and the
content has changed by no others: those that left stood at its front, those that entered are at its end. -/
def Accounted (s t : State) : Prop :=
  ∃ entered gone, capturedIds t.ev = capturedIds s.ev ++ entered ∧ departedIds t.ev = departedIds s.ev ++ gone
    ∧ content s ++ entered = gone ++ content t

/-! ### What is accounted for -/

theorem Accounted.of_same {s t : State} (captured : capturedIds t.ev = capturedIds s.ev)
    (departed : departedIds t.ev = departedIds s.ev) (same : content t = content s) : Accounted s t :=
  ⟨[], [], by simpa using captured, by simpa using departed, by simpa using same.symm⟩

theorem Accounted.trans {s t u : State} (first : Accounted s t) (second : Accounted t u) : Accounted s u := by
  obtain ⟨entered, gone, captured, departed, balance⟩ := first
  obtain ⟨entered', gone', captured', departed', balance'⟩ := second
  refine ⟨entered ++ entered', gone ++ gone', ?_, ?_, ?_⟩
  · rw [captured', captured, List.append_assoc]
  · rw [departed', departed, List.append_assoc]
  · rw [← List.append_assoc, balance, List.append_assoc, balance', List.append_assoc]

theorem accounted_recordResult (r : UnitResult) (s : State) : Accounted s (recordResult r s) := .of_same rfl rfl rfl

theorem accounted_afterInsert {s : State} (id : CardId) (hs : Invariant s) (room : s.qCount < s.cfg.cap) :
    Accounted s (afterInsert id s) :=
  ⟨[id], [], capturedIds_append .., departedIds_append .., (content_afterInsert id hs room).symm⟩

theorem accounted_afterEvict {s : State} (hs : Invariant s) (held : 0 < s.qCount) :
    Accounted s (afterEvict (slotValue s s.qTail) s) :=
  ⟨[], [slotValue s s.qTail], capturedIds_append .., departedIds_append ..,
    (List.append_nil _).trans (content_afterEvict _ hs held)⟩

/-- A transmission takes the oldest entry and reports it (45_scheduler.md R182). -/
theorem accounted_transmit {s : State} (hs : Invariant s) (held : 0 < s.qCount) :
    Accounted s (raise .transmitSuccess (some (slotValue s s.qTail)) (emitTx (slotValue s s.qTail) (afterPop s))) :=
  ⟨[], [slotValue s s.qTail], capturedIds_append .., departedIds_append ..,
    (List.append_nil _).trans (content_afterPop hs held)⟩

theorem Pushed.accounted {id : CardId} {s t : State} {r : PushResult} (hs : Invariant s) (h : Pushed id s t r) :
    Accounted s t := by
  cases h with
  | stored room head => exact accounted_afterInsert id hs room
  | replaced full policy head tail =>
    have held : 0 < s.qCount := by omega
    have room : s.qCount - 1 < s.cfg.cap := by have := hs.occupancy; omega
    exact (accounted_afterEvict hs held).trans (accounted_afterInsert id (hs.afterEvict _ held) room)
  | rejected full policy => exact .of_same (by simp [capturedIds]) (by simp [departedIds]) rfl

theorem Offered.accounted {id : CardId} {s t : State} {d : DupVerdict} (hs : Invariant s) (h : Offered id s t d) :
    Accounted s t := by
  cases h with
  | dropped => exact .of_same rfl rfl rfl
  | passed fresh push =>
    have noted : Invariant (noteForward id s) := hs.of_same rfl rfl rfl hs.count rfl rfl rfl rfl
    exact Accounted.trans (t := noteForward id s) (.of_same rfl rfl rfl) (push.accounted noted)

theorem Effect.accounted {s t : State} {i : Instr} (hs : Invariant s) (h : Effect s i t) (noReset : i ≠ .reset)
    (noPop : i ≠ .qPop) : Accounted s t := by
  cases h with
  | edgeRejected | edgeIgnored | edgeAppended | abandonIdle | completeIdle | unitRefused | decoded | schedIdle
  | schedEmpty | ticked => exact .of_same rfl rfl rfl
  | abandoned => exact .of_same (by simp [capturedIds]) (by simp [departedIds]) rfl
  | completed full settled offer =>
    exact Accounted.trans (t := clearFrame s) (.of_same rfl rfl rfl) (offer.accounted hs.clearFrame)
  | filteredForward unit offer | filteredSuppress unit offer =>
    exact (offer.accounted hs).trans (accounted_recordResult _ _)
  | pushedSuccess unit push | pushedFail unit push => exact (push.accounted hs).trans (accounted_recordResult _ _)
  | schedSent due held => exact Accounted.trans (.of_same rfl rfl rfl) (accounted_transmit hs.restartCadence held)
  | popEmpty | popEntry => exact absurd rfl noPop
  | reset => exact absurd rfl noReset

/-! ### What the account gives -/

/-- Settles O56: what entered is appended on both sides of the equation. -/
theorem noIdentifierLeavesUnreported : Obligations.NoIdentifierLeavesUnreported := by
  intro s t i hs noReset noPop balanced h
  obtain ⟨entered, gone, captured, departed, balance⟩ := (exec_effect h).accounted hs noReset noPop
  calc capturedIds t.ev
      = departedIds s.ev ++ (content s ++ entered) := by rw [captured, balanced, List.append_assoc]
    _ = departedIds t.ev ++ content t := by rw [balance, departed, List.append_assoc]

theorem OrderKept.accounted {s t : State} (kept : OrderKept s) (h : Accounted s t) : OrderKept t := by
  obtain ⟨entered, gone, captured, departed, balance⟩ := h
  rw [OrderKept, departed, captured, List.append_assoc, ← balance, ← List.append_assoc]
  exact kept.append_right entered

/-- Entries may leave unreported: the rest of the content is still in order. -/
theorem OrderKept.of_sublist {s t : State} (kept : OrderKept s) (ev : t.ev = s.ev)
    (fewer : (content t).Sublist (content s)) : OrderKept t := by
  rw [OrderKept, ev]
  exact (fewer.append_left (departedIds s.ev)).trans kept

theorem qPop_keeps_order {s t : State} (hs : Invariant s) (kept : OrderKept s) (h : exec .qPop s = .next t) :
    OrderKept t := by
  obtain ⟨-, ⟨-, rfl⟩ | ⟨held, -, rfl⟩⟩ | ⟨-, rfl⟩ := exec_qPop_next h
  · exact kept
  · refine kept.of_sublist rfl ?_
    rw [content_afterPop hs held]
    exact List.sublist_cons_self _ _
  · exact kept

theorem reset_keeps_order {s t : State} (kept : OrderKept s) (h : exec .reset s = .next t) : OrderKept t := by
  rw [exec_reset_next h]
  refine kept.of_sublist rfl ?_
  rw [content_empty (resetBlock_qCount _)]
  exact List.nil_sublist _

theorem exec_keeps_order {s t : State} {i : Instr} (hs : Invariant s) (kept : OrderKept s) (h : exec i s = .next t) :
    OrderKept t := by
  cases i with
  | qPop => exact qPop_keeps_order hs kept h
  | reset => exact reset_keeps_order kept h
  | _ => exact kept.accounted ((exec_effect h).accounted hs nofun nofun)

/-- Settles O55, by the cases of a step: it waits, marks a refused word, or runs an operation, which is accounted for
or drops entries only. -/
theorem queueOrderKeptByEveryStep : Obligations.QueueOrderKeptByEveryStep := by
  intro s t hs kept h
  obtain ⟨-, -, -, rfl⟩ | ⟨w, rest, -, ⟨-, -, -, rfl⟩ | ⟨i, -, -, hexec⟩⟩ := step_next h
  · exact kept
  · exact kept
  · exact exec_keeps_order (s := { s with stim := rest }) (hs.withStim rest) kept hexec

end Sys2Proof.Machine
end

section
/-! PROOF. Runs of pushes and pops (44_queue.md R166, R169 to R171), all read through the content. -/

namespace Sys2Proof.Machine

/-! ### Pushes -/

/-- What a queue of n slots keeps of the identifiers offered to it, in order: the last n under `DROP_OLDEST`, the
first n under `REJECT` (44_queue.md R170). -/
def keptIds (p : OverflowPolicy) (n : Nat) (ids : List CardId) : List CardId :=
  match p with
  | .dropOldest => ids.rtake n
  | .reject => ids.take n

theorem keptIds_of_length_le {p : OverflowPolicy} {n : Nat} {ids : List CardId} (fits : ids.length ≤ n) :
    keptIds p n ids = ids := by
  cases p with
  | dropOldest => simp [keptIds, List.rtake, Nat.sub_eq_zero_of_le fits]
  | reject => exact List.take_of_length_le fits

/-- What was not kept makes no difference to what is kept later. -/
theorem keptIds_keptIds_append (p : OverflowPolicy) (n : Nat) (ids more : List CardId) :
    keptIds p n (keptIds p n ids ++ more) = keptIds p n (ids ++ more) := by
  cases p with
  | dropOldest =>
    simp only [keptIds, List.rtake]
    rw [← List.drop_append_of_le_length (Nat.sub_le _ _), List.drop_drop]
    congr 1
    simp only [List.length_drop, List.length_append]
    omega
  | reject =>
    simp only [keptIds, List.take_append, List.take_take, min_self, List.length_take]
    congr 2
    omega

/-- A push is one identifier more offered to the queue. -/
theorem Pushed.content_eq {id : CardId} {s t : State} {r : PushResult} (hs : Invariant s) (h : Pushed id s t r) :
    content t = keptIds s.cfg.overflowPolicy s.cfg.cap (content s ++ [id]) := by
  have occupancy := hs.occupancy
  cases h with
  | stored room head =>
    rw [content_afterInsert id hs room, keptIds_of_length_le]
    simpa using room
  | replaced full policy head tail =>
    have held : 0 < s.qCount := by omega
    have room : s.qCount - 1 < s.cfg.cap := by omega
    have surplus : (content s ++ [id]).length - s.cfg.cap = 1 := by
      rw [List.length_append, content_length, List.length_singleton]
      omega
    rw [content_afterInsert id (hs.afterEvict _ held) room, policy, keptIds, List.rtake, surplus,
      content_afterEvict (slotValue s s.qTail) hs held]
    rfl
  | rejected full policy =>
    have length : s.cfg.cap = (content s).length := by rw [content_length]; omega
    rw [policy, keptIds, length, List.take_left]
    rfl

/-- A run of pushes leaves what the queue keeps of its content and the identifiers pushed. -/
theorem content_runOps_qPush {ids : List CardId} {s t : State} (hs : Invariant s) (unit : s.level = .unit)
    (h : runOps (ids.map .qPush) s = .next t) :
    content t = keptIds s.cfg.overflowPolicy s.cfg.cap (content s ++ ids) := by
  induction ids generalizing s with
  | nil =>
    cases h
    rw [List.append_nil, keptIds_of_length_le]
    simpa using hs.occupancy
  | cons id ids ih =>
    obtain ⟨u, hexec, hrest⟩ := runOps_cons h
    obtain ⟨level, cfg, -⟩ := exec_keeps_config (i := .qPush id) nofun hexec
    obtain ⟨v, r, x, pushed, rfl⟩ := qPush_next unit hexec
    rw [ih (exec_keeps_invariant hs hexec) (level.trans unit) hrest, cfg, content_recordResult, pushed.content_eq hs,
      keptIds_keptIds_append, List.append_assoc, List.singleton_append]

/-- Settles O33: with an empty content the queue keeps of the identifiers pushed. -/
theorem pushesKeepNewestOrFirst : Obligations.PushesKeepNewestOrFirst := by
  intro s t ids hs unit vacant h
  have run := content_runOps_qPush hs unit h
  rw [content_empty vacant, List.nil_append] at run
  refine ⟨fun policy => ?dropOldest, fun policy => ?reject⟩
  all_goals rw [run, policy]; rfl

/-! ### Pops -/

/-- Settles O34, by induction on the number of pops: each takes the first entry of the content, or finds none. -/
theorem popsReturnContentInOrder : Obligations.PopsReturnContentInOrder := by
  intro s k hs unit
  induction k generalizing s with
  | zero => exact ⟨s, rfl, rfl, by simp⟩
  | succ k ih =>
    cases hc : content s with
    | nil =>
      have hexec := qPop_of_content_nil unit hc
      obtain ⟨t, run, left, res⟩ := ih (recordResult .empty s) (hs.recordResult _) unit
      rw [content_recordResult, hc] at left res
      refine ⟨t, (runOps_cons_next _ hexec).trans run, by simpa using left, ?_⟩
      simp [res, List.replicate_succ]
    | cons v rest =>
      have hexec := qPop_of_content_cons hs unit hc
      obtain ⟨held, -, others⟩ := oldest_of_content_cons hs hc
      obtain ⟨t, run, left, res⟩ :=
        ih (recordResult (.value v) (afterPop s)) ((hs.afterPop held).recordResult _) unit
      rw [content_recordResult, others] at left res
      refine ⟨t, (runOps_cons_next _ hexec).trans run, left, ?_⟩
      simp [res, afterPop]

/-! ### A push and a pop on a full queue -/

theorem runOps_pair {i j : Instr} {s t u : State} (first : exec i s = .next t) (second : exec j t = .next u) :
    runOps [i, j] s = .next u := by
  rw [runOps_cons_next _ first, runOps_cons_next _ second, runOps_nil]

/-- Settles O35: with the pop first the push finds room; with the push first the pop finds the second entry oldest. -/
theorem pushAndPopInEitherOrder : Obligations.PushAndPopInEitherOrder := by
  intro s x e1 e2 rest hs unit policy full hc
  obtain ⟨held, oldest, others⟩ := oldest_of_content_cons hs hc
  have room : s.qCount - 1 < s.cfg.cap := by omega
  refine ⟨?popFirst, ?pushFirst⟩
  case popFirst =>
    have popped := qPop_of_content_cons hs unit hc
    have hu : Invariant (recordResult (.value e1) (afterPop s)) := (hs.afterPop held).recordResult _
    refine ⟨_, runOps_pair popped (qPush_succeeds unit (push_with_room room hu.head)), ?_, List.append_assoc .., rfl⟩
    exact (content_afterInsert x hu room).trans (congrArg (· ++ [x]) others)
  case pushFirst =>
    have pushed := qPush_succeeds unit (push_evicting (id := x) full.ge policy hs.head hs.tail)
    have evicted : Invariant (afterEvict (slotValue s s.qTail) s) := hs.afterEvict _ held
    have hu := (evicted.afterInsert x room).recordResult .success
    have hcu : content (recordResult .success (afterInsert x (afterEvict (slotValue s s.qTail) s)))
        = e2 :: (rest ++ [x]) := (content_afterInsert x evicted room).trans (congrArg (· ++ [x]) others)
    obtain ⟨-, -, left⟩ := oldest_of_content_cons hu hcu
    refine ⟨_, runOps_pair pushed (qPop_of_content_cons hu unit hcu), left, List.append_assoc .., ?_⟩
    rw [← oldest]
    exact List.append_assoc ..

end Sys2Proof.Machine
end

section
/-! PROOF. From a state with the invariant every operation gives a next state (60_exceptions.md R210): what its meaning
could find amiss, a frame count above 26 or a slot of N or more, the invariant excludes. -/

namespace Sys2Proof.Machine

/-- Under the invariant the frame count is a state of the frame (10_state.md R25, R26). -/
theorem Invariant.frameState_ne_none {s : State} (hs : Invariant s) : frameState s ≠ none := by
  intro noState
  have above := BitVec.lt_def.mp ((frameState_none_iff s).mp noState)
  exact Nat.not_lt.mpr hs.count above

theorem Invariant.edge_total {s : State} (b : Bool) (hs : Invariant s) : ∃ t, outcomeOf (edge b s) = .next t := by
  cases h : edge b s with
  | ok t => exact ⟨t, rfl⟩
  | error f => exact absurd ((frameState_none_iff s).mpr (edge_error h)) hs.frameState_ne_none

theorem atUnitLevel_total {s : State} {o : Host.Outcome State Fault Refusal} (admitted : ∃ t, o = .next t) :
    ∃ t, atUnitLevel s o = .next t := by
  cases level : s.level with
  | unit => rwa [atUnitLevel_unit o level]
  | block => exact ⟨_, atUnitLevel_block o level⟩

/-- Under the invariant no operation faults. -/
theorem Invariant.exec_total {s : State} (i : Instr) (hs : Invariant s) : ∃ t, exec i s = .next t := by
  cases i with
  | edgeD0 => exact hs.edge_total false
  | edgeD1 => exact hs.edge_total true
  | pollAbandon =>
    simp only [exec, execPollAbandon]
    split
    · split <;> exact ⟨_, rfl⟩
    · exact ⟨_, rfl⟩
    · exact absurd ‹_› hs.frameState_ne_none
  | pollComplete =>
    obtain ⟨t, d, offered⟩ := hs.clearFrame.offer_total (decodeId (frameRaw s.fbit))
    simp only [exec, execPollComplete, offered]
    split
    · split <;> exact ⟨_, rfl⟩
    · exact ⟨_, rfl⟩
    · exact absurd ‹_› hs.frameState_ne_none
  | decode raw => exact atUnitLevel_total ⟨_, rfl⟩
  | dupFilter id =>
    obtain ⟨t, d, offered⟩ := hs.offer_total id
    refine atUnitLevel_total ?_
    rw [offered]
    cases d <;> exact ⟨_, rfl⟩
  | qPush id =>
    obtain ⟨t, r, pushed⟩ := hs.push_total id
    refine atUnitLevel_total ?_
    rw [pushed]
    cases r <;> exact ⟨_, rfl⟩
  | qPop =>
    obtain ⟨t, r, popped⟩ := hs.pop_total
    refine atUnitLevel_total ?_
    rw [popped]
    cases r <;> exact ⟨_, rfl⟩
  | schedPoll =>
    obtain ⟨t, r, popped⟩ := hs.restartCadence.pop_total
    simp only [exec, execSchedPoll, popped]
    split
    · cases r <;> exact ⟨_, rfl⟩
    · exact ⟨_, rfl⟩
  | tick n => exact ⟨_, rfl⟩
  | reset => exact ⟨_, rfl⟩

end Sys2Proof.Machine
end

section
/-! PROOF. The messages sent and the transmissions reported (45_scheduler.md R180 to R183): SCHED_POLL at the cadence,
with an entry to take, is the one operation that sends, and it reports what it sends. -/

namespace Sys2Proof.Machine

/-! ### SCHED_POLL -/

theorem schedPoll_early {s : State} (early : s.ageTx < s.cfg.cadenceUs) : exec .schedPoll s = .next s := by
  have notDue : ¬ s.cfg.cadenceUs.toNat ≤ s.ageTx.toNat := Nat.not_le.mpr (BitVec.lt_def.mp early)
  simp [exec, execSchedPoll, notDue]

theorem schedPoll_empty {s : State} (due : s.cfg.cadenceUs ≤ s.ageTx) (vacant : s.qCount = 0) :
    exec .schedPoll s = .next { s with ageTx := 0 } := by
  have popped : pop { s with ageTx := 0 } = .ok ({ s with ageTx := 0 }, none) := pop_empty vacant
  simp only [exec, execSchedPoll, BitVec.le_def.mp due, if_true, popped]

theorem schedPoll_sends {s : State} (due : s.cfg.cadenceUs ≤ s.ageTx) (held : 0 < s.qCount)
    (tail : s.qTail < s.cfg.cap) :
    exec .schedPoll s = .next (raise .transmitSuccess (some (slotValue s s.qTail))
      (emitTx (slotValue s s.qTail) (afterPop { s with ageTx := 0 }))) := by
  have popped : pop { s with ageTx := 0 } = .ok (afterPop { s with ageTx := 0 }, some (slotValue s s.qTail)) :=
    pop_entry held tail
  simp only [exec, execSchedPoll, BitVec.le_def.mp due, if_true, popped]

/-- Settles O37, by the cadence and, once it is over, by whether the queue holds an entry. -/
theorem schedPollSendsAtCadence : Obligations.SchedPollSendsAtCadence := by
  intro s
  refine ⟨schedPoll_early, schedPoll_empty, ?sends⟩
  rintro _ rfl due held tail
  exact schedPoll_sends due held tail

/-! ### What an operation sends and reports -/

@[simp] theorem transmittedIds_append (es fs : List Event) :
    transmittedIds (es ++ fs) = transmittedIds es ++ transmittedIds fs := List.filterMap_append

/-- Between two states nothing has been sent, and no transmission reported. -/
def Silent (s t : State) : Prop := t.out = s.out ∧ transmittedIds t.ev = transmittedIds s.ev

theorem Silent.trans {s t u : State} (first : Silent s t) (second : Silent t u) : Silent s u :=
  ⟨second.1.trans first.1, second.2.trans first.2⟩

/-- Between two states the message of one identifier has been sent, and its transmission reported. -/
def Sent (r : CardId) (s t : State) : Prop :=
  t.out = s.out ++ [⟨r, message r⟩] ∧ transmittedIds t.ev = transmittedIds s.ev ++ [r]

theorem silent_raise {c : EventCode} (i : Option CardId) (s : State) (other : c ≠ .transmitSuccess) :
    Silent s (raise c i s) := by
  simp [Silent, transmittedIds, other]

theorem silent_afterInsert (id : CardId) (s : State) : Silent s (afterInsert id s) :=
  silent_raise (c := .captureSuccess) (some id) s (by decide)

theorem silent_afterEvict (old : CardId) (s : State) : Silent s (afterEvict old s) :=
  silent_raise (c := .evict) (some old) s (by decide)

theorem Pushed.silent {id : CardId} {s t : State} {r : PushResult} (h : Pushed id s t r) : Silent s t := by
  cases h with
  | stored => exact silent_afterInsert id s
  | replaced => exact (silent_afterEvict _ s).trans (silent_afterInsert id _)
  | rejected => exact silent_raise _ s (by decide)

theorem Offered.silent {id : CardId} {s t : State} {d : DupVerdict} (h : Offered id s t d) : Silent s t := by
  cases h with
  | dropped => exact ⟨rfl, rfl⟩
  | passed fresh push => exact push.silent

/-- An operation sends nothing, or it is a SCHED_POLL at the cadence, which sends and reports one identifier. -/
theorem Effect.silent_or_sent {s t : State} {i : Instr} (h : Effect s i t) :
    Silent s t ∨ (s.cfg.cadenceUs ≤ s.ageTx ∧ ∃ r, Sent r s t) := by
  cases h with
  | schedSent due held tail => exact .inr ⟨due, _, rfl, transmittedIds_append ..⟩
  | abandoned => exact .inl (silent_raise none (clearFrame s) (by decide))
  | completed full settled offer => exact .inl offer.silent
  | filteredForward unit offer | filteredSuppress unit offer => exact .inl offer.silent
  | pushedSuccess unit push | pushedFail unit push => exact .inl push.silent
  | edgeRejected | edgeIgnored | edgeAppended | abandonIdle | completeIdle | unitRefused | decoded | popEmpty | popEntry
  | schedIdle | schedEmpty | ticked | reset => exact .inl ⟨rfl, rfl⟩

/-! ### The output trace and the reports -/

theorem OutputReported.silent {s t : State} (agreed : OutputReported s) (h : Silent s t) : OutputReported t := by
  obtain ⟨out, reports⟩ := h
  rwa [OutputReported, out, reports]

theorem OutputReported.sent {r : CardId} {s t : State} (agreed : OutputReported s) (h : Sent r s t) :
    OutputReported t := by
  obtain ⟨ids, bytes⟩ := agreed
  obtain ⟨out, reports⟩ := h
  rw [OutputReported, out, reports]
  refine ⟨by rw [List.map_append, ids]; rfl, ?messages⟩
  exact List.forall_mem_append.mpr ⟨bytes, by simp⟩

/-- Settles O57, by the cases of a step: it waits, marks a refused word, or runs an operation, which sends nothing or
sends and reports one identifier. -/
theorem outputReportedKeptByEveryStep : Obligations.OutputReportedKeptByEveryStep := by
  intro s t agreed h
  obtain ⟨-, -, -, rfl⟩ | ⟨w, rest, -, ⟨-, -, -, rfl⟩ | ⟨i, -, -, hexec⟩⟩ := step_next h
  · exact agreed
  · exact agreed
  · have agreed : OutputReported { s with stim := rest } := agreed
    obtain silent | ⟨-, r, sent⟩ := (exec_effect hexec).silent_or_sent
    · exact agreed.silent silent
    · exact agreed.sent sent

end Sys2Proof.Machine
end

section
/-! PROOF. The cadence (45_scheduler.md R181, R184, R185): an attempt and RESET restart `age_tx`, and under every other
operation it grows by the time that passes; so how long no attempt comes, and how many a span of time holds. -/

namespace Sys2Proof.Machine

/-! ### The age of the last attempt -/

/-- The operation is an attempt: a poll of the scheduler that finds the cadence reached (45_scheduler.md R181). -/
def IsAttempt (i : Instr) (s : State) : Prop := i = .schedPoll ∧ s.cfg.cadenceUs ≤ s.ageTx

theorem attempts_cons_of_attempt {i : Instr} {s t : State} (is : List Instr) (attempt : IsAttempt i s)
    (h : exec i s = .next t) : attempts (i :: is) s = attempts is t + 1 := by
  rw [attempts, if_pos (show i = .schedPoll ∧ _ from attempt), h, Nat.add_comm]

theorem attempts_cons_of_not_attempt {i : Instr} {s t : State} (is : List Instr) (other : ¬ IsAttempt i s)
    (h : exec i s = .next t) : attempts (i :: is) s = attempts is t := by
  rw [attempts, if_neg (show ¬ (i = .schedPoll ∧ _) from other), h, Nat.zero_add]

/-- Every attempt restarts the cadence, whether it sends a value or finds the queue empty (45_scheduler.md R181). -/
theorem exec_attempt_ageTx {i : Instr} {s t : State} (attempt : IsAttempt i s) (h : exec i s = .next t) :
    t.ageTx = 0 := by
  obtain ⟨rfl, due⟩ := attempt
  obtain ⟨early, -⟩ | ⟨-, -, rfl⟩ | ⟨-, -, -, rfl⟩ := exec_schedPoll_next h
  · exact absurd early (BitVec.not_lt.mpr due)
  · rfl
  · rfl

theorem AgentFrame.ageTx_eq {a : Agent} {s t : State} (h : AgentFrame a s t) (ha : a = .capture ∨ a = .poll) :
    t.ageTx = s.ageTx := by
  obtain rfl | rfl := ha <;> rw [show t = _ from h]

/-- An operation that is neither an attempt nor RESET ages the last attempt by the time it takes. -/
theorem exec_ages_tx {i : Instr} {s t : State} (hi : i ≠ .reset) (other : ¬ IsAttempt i s) (h : exec i s = .next t) :
    t.ageTx = satAdd s.ageTx (microsOf i) := by
  cases i with
  | tick n =>
    rw [exec_tick_next h]
    rfl
  | reset => exact absurd rfl hi
  | schedPoll =>
    rw [microsOf, satAdd_zero]
    obtain ⟨-, rfl⟩ | ⟨due, -⟩ | ⟨due, -⟩ := exec_schedPoll_next h
    · rfl
    · exact absurd ⟨rfl, due⟩ other
    · exact absurd ⟨rfl, due⟩ other
  | qPop =>
    rw [microsOf, satAdd_zero]
    obtain ⟨-, ⟨-, rfl⟩ | ⟨-, -, rfl⟩⟩ | ⟨-, rfl⟩ := exec_qPop_next h <;> rfl
  | edgeD0 | edgeD1 | pollAbandon | pollComplete | decode | dupFilter | qPush =>
    rw [microsOf, satAdd_zero]
    exact (exec_effect h).agentFrame.ageTx_eq (by simp [Instr.agent])

/-- The last attempt ages by no more than the time that passes, whatever the operation. -/
theorem exec_ageTx_le {i : Instr} {s t : State} (h : exec i s = .next t) :
    t.ageTx.toNat ≤ s.ageTx.toNat + microsOf i := by
  by_cases hi : i = .reset
  · subst hi
    rw [exec_reset_next h, resetBlock_ageTx]
    exact Nat.zero_le _
  by_cases attempt : IsAttempt i s
  · rw [exec_attempt_ageTx attempt h]
    exact Nat.zero_le _
  · rw [exec_ages_tx hi attempt h, satAdd_toNat]
    exact Nat.min_le_left _ _

/-! ### Before the cadence -/

theorem not_isAttempt_of_early {s : State} (i : Instr) (early : s.ageTx.toNat < s.cfg.cadenceUs.toNat) :
    ¬ IsAttempt i s := by
  rintro ⟨-, due⟩
  exact Nat.not_lt.mpr (BitVec.le_def.mp due) early

/-- n microseconds from now the last attempt is still younger than the cadence, that in force and those that resets may
sample. -/
def WithinCadences (n : Nat) (s : State) : Prop :=
  ∀ c ∈ s.cfg :: s.cfgNext, s.ageTx.toNat + n < c.cadenceUs.toNat

theorem WithinCadences.early {n : Nat} {s : State} (h : WithinCadences n s) :
    s.ageTx.toNat < s.cfg.cadenceUs.toNat :=
  Nat.lt_of_add_right_lt (h s.cfg List.mem_cons_self)

/-- The configuration in force after an operation, and those to come, are among those of before: RESET takes the next
one of its inputs (70_reset_and_hazards.md R240). -/
theorem exec_cfgs_subset {i : Instr} {s t : State} (h : exec i s = .next t) :
    t.cfg :: t.cfgNext ⊆ s.cfg :: s.cfgNext := by
  by_cases hi : i = .reset
  · subst hi
    rw [exec_reset_next h, resetBlock_cfg, resetBlock_cfgNext]
    obtain ⟨cfg, next⟩ | sampled := sampleCfg_cases s
    · rw [cfg, next]
      exact List.Subset.refl _
    · rw [sampled]
      exact List.subset_cons_self _ _
  · obtain ⟨-, cfg, next⟩ := exec_keeps_config hi h
    rw [cfg, next]
    exact List.Subset.refl _

theorem WithinCadences.after {i : Instr} {n : Nat} {s t : State} (h : WithinCadences (microsOf i + n) s)
    (hexec : exec i s = .next t) : WithinCadences n t := by
  intro c hc
  have young := h c (exec_cfgs_subset hexec hc)
  have aged := exec_ageTx_le hexec
  omega

/-- Within the cadences no operation sends. -/
theorem WithinCadences.exec_silent {i : Instr} {n : Nat} {s t : State} (h : WithinCadences n s)
    (hexec : exec i s = .next t) : Silent s t := by
  obtain silent | ⟨due, -⟩ := (exec_effect hexec).silent_or_sent
  · exact silent
  · exact absurd h.early (Nat.not_lt.mpr (BitVec.le_def.mp due))

/-- Within the cadences no run sends, RESET among its operations. -/
theorem WithinCadences.runOps_silent {ops : List Instr} {s t : State} (within : WithinCadences (elapsed ops) s)
    (h : runOps ops s = .next t) : Silent s t := by
  induction ops generalizing s with
  | nil => cases h; exact ⟨rfl, rfl⟩
  | cons i is ih =>
    obtain ⟨u, first, rest⟩ := runOps_cons h
    rw [elapsed_cons] at within
    exact (within.exec_silent first).trans (ih (within.after first) rest)

/-- Without RESET, a run that stays within the cadence makes no attempt and ages the last one by the time it takes. -/
theorem runOps_ages_tx {ops : List Instr} {s t : State} (noReset : .reset ∉ ops)
    (young : s.ageTx.toNat + elapsed ops < s.cfg.cadenceUs.toNat) (h : runOps ops s = .next t) :
    t.ageTx.toNat = s.ageTx.toNat + elapsed ops ∧ attempts ops s = 0 := by
  induction ops generalizing s with
  | nil => cases h; exact ⟨rfl, rfl⟩
  | cons i is ih =>
    obtain ⟨hi, noReset⟩ := List.ne_and_not_mem_of_not_mem_cons noReset
    obtain ⟨u, first, rest⟩ := runOps_cons h
    obtain ⟨-, cfg, -⟩ := exec_keeps_config hi.symm first
    rw [elapsed_cons] at young ⊢
    have other : ¬ IsAttempt i s := not_isAttempt_of_early i (Nat.lt_of_add_right_lt young)
    have aged : u.ageTx.toNat = s.ageTx.toNat + microsOf i := by
      have := s.cfg.cadenceUs.isLt
      rw [exec_ages_tx hi.symm other first, satAdd_toNat, ageMax]
      omega
    obtain ⟨age, none⟩ := ih noReset (by rw [aged, cfg]; omega) rest
    rw [attempts_cons_of_not_attempt is other first, age, aged]
    exact ⟨Nat.add_assoc .., none⟩

/-- Settles O38: no operation of such a run sends, and without RESET none is an attempt. -/
theorem sendsAreACadenceApart : Obligations.SendsAreACadenceApart := by
  intro s t ops h
  exact ⟨fun within => WithinCadences.runOps_silent within h, fun noReset young => runOps_ages_tx noReset young h⟩

/-! ### At most so many attempts -/

/-- Each attempt uses up a cadence of the time that passes, the first one of the age found at the start. -/
theorem attempts_mul_cadence_le {ops : List Instr} {s : State} (hs : Invariant s) (noReset : .reset ∉ ops) :
    attempts ops s * s.cfg.cadenceUs.toNat ≤ min s.ageTx.toNat s.cfg.cadenceUs.toNat + elapsed ops := by
  induction ops generalizing s with
  | nil => simp [attempts]
  | cons i is ih =>
    obtain ⟨hi, noReset⟩ := List.ne_and_not_mem_of_not_mem_cons noReset
    obtain ⟨t, hexec⟩ := hs.exec_total i
    obtain ⟨-, cfg, -⟩ := exec_keeps_config hi.symm hexec
    have bound := ih (exec_keeps_invariant hs hexec) noReset
    rw [cfg] at bound
    rw [elapsed_cons]
    by_cases attempt : IsAttempt i s
    · have due := BitVec.le_def.mp attempt.2
      have restarted : t.ageTx.toNat = 0 := by simp [exec_attempt_ageTx attempt hexec]
      rw [attempts_cons_of_attempt is attempt hexec, Nat.succ_mul]
      omega
    · have aged := exec_ageTx_le hexec
      rw [attempts_cons_of_not_attempt is attempt hexec]
      omega

/-! ### At least so many attempts -/

/-- With a poll w microseconds ago, the next one comes before more than Q have passed since. -/
def PolledWithin (Q w : Nat) (ops : List Instr) : Prop :=
  ∀ seg, seg <+: ops → .schedPoll ∉ seg → w + elapsed seg ≤ Q

theorem PolledWithin.le {Q w : Nat} {ops : List Instr} (h : PolledWithin Q w ops) : w ≤ Q :=
  h [] List.nil_prefix List.not_mem_nil

theorem PolledWithin.tail {Q w : Nat} {i : Instr} {is : List Instr} (h : PolledWithin Q w (i :: is))
    (other : i ≠ .schedPoll) : PolledWithin Q (w + microsOf i) is := by
  intro seg hseg free
  have := h (i :: seg) ((List.prefix_cons_inj i).mpr hseg) (List.not_mem_cons_of_ne_of_not_mem other.symm free)
  rwa [elapsed_cons, ← Nat.add_assoc] at this

theorem PolledEvery.polledWithin {Q : Nat} {ops : List Instr} (h : PolledEvery Q .schedPoll ops) :
    PolledWithin Q 0 ops := by
  intro seg hseg free
  rw [Nat.zero_add]
  exact Nat.not_lt.mp fun long => free (h seg hseg.isInfix long)

theorem PolledEvery.tail {Q : Nat} {op i : Instr} {is : List Instr} (h : PolledEvery Q op (i :: is)) :
    PolledEvery Q op is :=
  fun seg hseg => h seg (List.infix_cons hseg)

/-- What is known of the cadence g microseconds after the last attempt and w after the last poll, or after the start of
the run: it was not over at that poll, and where `age_tx` is still below it, `age_tx` counts those g and more. -/
structure SinceAttempt (g w : Nat) (s : State) : Prop where
  lastPoll : g < s.cfg.cadenceUs.toNat + w
  counted : s.ageTx.toNat < s.cfg.cadenceUs.toNat → g ≤ s.ageTx.toNat

theorem sinceAttempt_restart {s : State} (pos : 0 < s.cfg.cadenceUs.toNat) : SinceAttempt 0 0 s :=
  ⟨pos, fun _ => Nat.zero_le _⟩

theorem SinceAttempt.lt_piece {Q g w : Nat} {ops : List Instr} {s : State} (h : SinceAttempt g w s)
    (within : PolledWithin Q w ops) : g < s.cfg.cadenceUs.toNat + Q :=
  Nat.lt_of_lt_of_le h.lastPoll (Nat.add_le_add_left within.le _)

/-- A poll before the cadence is over. -/
theorem SinceAttempt.poll {g w : Nat} {s : State} (h : SinceAttempt g w s)
    (early : s.ageTx.toNat < s.cfg.cadenceUs.toNat) : SinceAttempt g 0 s :=
  ⟨Nat.lt_of_le_of_lt (h.counted early) early, h.counted⟩

theorem SinceAttempt.after {g w n : Nat} {s t : State} (h : SinceAttempt g w s) (cfg : t.cfg = s.cfg)
    (age : t.ageTx = satAdd s.ageTx n) : SinceAttempt (g + n) (w + n) t := by
  obtain ⟨lastPoll, counted⟩ := h
  have := s.cfg.cadenceUs.isLt
  constructor
  all_goals rw [cfg]
  · omega
  · rw [age, satAdd_toNat, ageMax]
    omega

/-- Under an operation that is no attempt the time since the last one runs on; if it is a poll, the interval of the polls
starts again. -/
theorem SinceAttempt.exec {Q g w : Nat} {i : Instr} {is : List Instr} {s t : State} (since : SinceAttempt g w s)
    (within : PolledWithin Q w (i :: is)) (polled : PolledEvery Q .schedPoll (i :: is)) (hi : i ≠ .reset)
    (other : ¬ IsAttempt i s) (h : exec i s = .next t) :
    ∃ v, PolledWithin Q v is ∧ SinceAttempt (g + microsOf i) v t := by
  obtain ⟨-, cfg, -⟩ := exec_keeps_config hi h
  have aged := exec_ages_tx hi other h
  by_cases poll : i = .schedPoll
  · subst poll
    have early : s.ageTx.toNat < s.cfg.cadenceUs.toNat :=
      Nat.not_le.mp fun due => other ⟨rfl, BitVec.le_def.mpr due⟩
    exact ⟨0, polled.tail.polledWithin, (since.poll early).after cfg aged⟩
  · exact ⟨w + microsOf i, within.tail poll, since.after cfg aged⟩

/-- With a poll in every interval of Q microseconds, the attempts of a run cut its time into pieces that each last less
than a cadence and Q. -/
theorem elapsed_lt_attempts_mul {Q g w : Nat} {ops : List Instr} {s : State} (hs : Invariant s)
    (noReset : .reset ∉ ops) (pos : 0 < s.cfg.cadenceUs.toNat) (polled : PolledEvery Q .schedPoll ops)
    (within : PolledWithin Q w ops) (since : SinceAttempt g w s) :
    g + elapsed ops < (s.cfg.cadenceUs.toNat + Q) * (attempts ops s + 1) := by
  induction ops generalizing s g w with
  | nil => simpa [attempts] using since.lt_piece within
  | cons i is ih =>
    obtain ⟨hi, noReset⟩ := List.ne_and_not_mem_of_not_mem_cons noReset
    obtain ⟨t, hexec⟩ := hs.exec_total i
    obtain ⟨-, cfg, -⟩ := exec_keeps_config hi.symm hexec
    have ht : Invariant t := exec_keeps_invariant hs hexec
    rw [← cfg] at pos
    rw [elapsed_cons]
    by_cases attempt : IsAttempt i s
    · have piece := since.lt_piece within
      have rest := ih ht noReset pos polled.tail polled.tail.polledWithin (sinceAttempt_restart pos)
      rw [attempts_cons_of_attempt is attempt hexec, Nat.mul_succ, attempt.1, microsOf]
      rw [cfg] at rest
      omega
    · obtain ⟨v, within', since'⟩ := since.exec within polled hi.symm attempt hexec
      have rest := ih ht noReset pos polled.tail within' since'
      rwa [cfg, Nat.add_assoc, ← attempts_cons_of_not_attempt is attempt hexec] at rest

/-- Settles O39, by the two bounds on the time per attempt; with a cadence of 0 `POLL_OK` has Q = 0, and the quotient of
the second is 0. -/
theorem attemptsInASpan : Obligations.AttemptsInASpan := by
  intro P Q s ops hs noReset
  refine ⟨fun pos => ?atMost, fun ok => ?atLeast⟩
  case atMost =>
    have bound := attempts_mul_cadence_le hs noReset
    have pos : 0 < s.cfg.cadenceUs.toNat := BitVec.lt_def.mp pos
    rw [← Nat.add_div_right _ pos, Nat.le_div_iff_mul_le pos]
    omega
  case atLeast =>
    have sched := ok.sched
    obtain zero | pos := Nat.eq_zero_or_pos s.cfg.cadenceUs.toNat
    · have noTime : s.cfg.cadenceUs.toNat + Q = 0 := by omega
      rw [noTime, Nat.div_zero]
      exact Nat.zero_le _
    · have within := ok.attempt.polledWithin
      have bound := elapsed_lt_attempts_mul hs noReset pos ok.attempt within (sinceAttempt_restart pos)
      rw [Nat.zero_add] at bound
      exact Nat.lt_succ_iff.mp (Nat.div_lt_of_lt_mul bound)

end Sys2Proof.Machine
end

section
/-! PROOF. Time (46_timebase_reset.md R200, R201): `TICK n` is n single microseconds, and no other operation changes
`now`. -/

namespace Sys2Proof.Machine

theorem exec_tick_eq (n : TickCount) (s : State) : exec (.tick n) s = .next (passTime n.toNat s) := rfl

/-- The closed form of `TICK`'s loop (46_timebase_reset.md R201), for any number of turns. -/
theorem microsecond_iterate (n : Nat) (s : State) : microsecond^[n] s = passTime n s := by
  induction n with
  | zero => exact (passTime_zero s).symm
  | succ n ih => rw [Function.iterate_succ_apply', ih, microsecond_eq_passTime, passTime_passTime]

/-- A count of 0 has no word (30_encoding.md R94). -/
theorem decodeOp_tick_toOption (n : TickCount) :
    (decodeOp ((0x9 : BitVec 4) ++ n)).toOption = if n = 0 then none else some (.tick n) := by
  obtain rfl | ne := eq_or_ne n 0
  · rfl
  · have decoded : decodeOp ((0x9 : BitVec 4) ++ n) = .ok (.tick n) := decodeOfEncode (.tick n) (bne_iff_ne.mpr ne)
    rw [decoded, if_neg ne]
    rfl

/-- Settles O41: the loop is `passTime`, by induction on the count, and each age saturates by `satAdd_toNat`. -/
theorem tickIsRepeatedMicroseconds : Obligations.TickIsRepeatedMicroseconds := by
  intro s n
  refine ⟨?loop, ⟨passTime n.toNat s, exec_tick_eq n s, passTime_now s _, ?edge, ?bit, ?dup, ?tx, rfl⟩, rfl,
    decodeOp_tick_toOption n⟩
  case loop => rw [exec_tick_eq, microsecond_iterate]
  all_goals exact satAdd_toNat _ _

theorem AgentFrame.now_eq {a : Agent} {s t : State} (h : AgentFrame a s t) (ha : a ≠ .environment) :
    t.now = s.now := by
  cases a with
  | capture | poll | scheduler => rw [show t = _ from h]
  | environment => exact absurd rfl ha

/-- Settles O44: no agent but the environment may write `now`, and of its two operations RESET does not. -/
theorem onlyTickTakesTime : Obligations.OnlyTickTakesTime := by
  intro s t i h
  cases i with
  | tick n => rw [exec_tick_next h]; rfl
  | reset => rw [exec_reset_next h]; rfl
  | edgeD0 | edgeD1 | pollAbandon | pollComplete | decode | dupFilter | qPush | qPop | schedPoll =>
    exact (exec_effect h).agentFrame.now_eq nofun

end Sys2Proof.Machine
end

section
/-! PROOF. RESET (46_timebase_reset.md R203, R204): what it writes, the invariant it establishes, and that it is the
only operation with a step before the first RESET. -/

namespace Sys2Proof.Machine

theorem exec_reset_eq (s : State) : exec .reset s = .next (resetBlock (sampleCfg s)) := rfl

/-- With no configuration to come the inputs hold the one in force (log entry 2). -/
theorem cfgAtRelease_of_none_to_come {s : State} (noneToCome : s.cfgNext = []) : cfgAtRelease s = s.cfg := by
  simp [cfgAtRelease, noneToCome]

/-- Settles O42: the state is `resetBlock` of the sampled one, whose other elements are as before. -/
theorem resetWritesTheResetValues : Obligations.ResetWritesTheResetValues :=
  ⟨fun s => ⟨resetBlock (sampleCfg s), exec_reset_eq s, cfgAtRelease_of_none_to_come, rfl⟩, rfl,
    (decodeOp_eq_reset_iff _).mpr rfl⟩

/-- Settles O52, by `invariant_after_reset`. -/
theorem resetEstablishesInvariant : Obligations.ResetEstablishesInvariant := by
  intro s t legal next h
  rw [exec_reset_next h]
  exact invariant_after_reset legal next

/-! ### Before the first RESET -/

theorem step_of_stopInForce {s : State} {stop : Host.Outcome State Fault Refusal} (hs : s.stim = [])
    (h : stopInForce s = some stop) : step s = stop := by
  simp only [step, fetchWord, hs, h]

theorem step_of_stopBefore {s : State} {w : OpWord} {rest : List OpWord} {stop : Host.Outcome State Fault Refusal}
    (hs : s.stim = w :: rest) (h : stopBefore { s with stim := rest } (decodeOp w) = some stop) : step s = stop := by
  simp only [step, fetchWord, hs, h]

/-- Settles O8: any word but RESET's, and a step with none, meets the stop in force; RESET's word runs by O5. -/
theorem onlyResetStepsBeforeFirstReset : Obligations.OnlyResetStepsBeforeFirstReset := by
  refine ⟨fun s hs dead => ?waiting, fun s w rest hs dead => ⟨fun hw => ?other, fun hw legal => ?reset⟩⟩
  case waiting => exact step_of_stopInForce hs (stopInForce_not_live dead)
  case other =>
    have hd : decodeOp w ≠ .ok .reset := mt (decodeOp_eq_reset_iff w).mp hw
    exact step_of_stopBefore hs ((stopBefore_of_ne_reset hd).trans (stopInForce_not_live dead))
  case reset =>
    have hd : decodeOp w = .ok .reset := (decodeOp_eq_reset_iff w).mpr hw
    rw [stepRunsTheDecodedOperation s w rest .reset hs hd (absurd rfl) fun _ => legal, exec_reset_eq]
    exact ⟨_, rfl, rfl, rfl⟩

end Sys2Proof.Machine
end

section
/-! PROOF. The events each operation raises (60_exceptions.md R213): a push raises its own, a poll at most one more kind,
and every other operation none; what goes out with them is the account of `Effect.silent_or_sent`. -/

namespace Sys2Proof.Machine

/-- `EV` has grown by the given events. -/
def Raised (es : List Event) (s t : State) : Prop := t.ev = s.ev ++ es

theorem raised_nil {s t : State} (ev : t.ev = s.ev) : Raised [] s t := by rw [Raised, ev, List.append_nil]

theorem raised_raise (c : EventCode) (i : Option CardId) (s : State) : Raised [⟨c, i⟩] s (raise c i s) := rfl

theorem Pushed.raised {id : CardId} {s t : State} {r : PushResult} (h : Pushed id s t r) :
    ∃ es, Raised es s t ∧ PushEvents es := by
  cases h with
  | stored => exact ⟨[⟨.captureSuccess, some id⟩], rfl, .inl ⟨id, rfl⟩⟩
  | replaced =>
    exact ⟨[⟨.evict, some (slotValue s s.qTail)⟩, ⟨.captureSuccess, some id⟩], List.append_assoc ..,
      .inr (.inl ⟨_, id, rfl⟩)⟩
  | rejected => exact ⟨[⟨.queueOverflow, some id⟩], rfl, .inr (.inr ⟨id, rfl⟩)⟩

theorem Offered.raised {id : CardId} {s t : State} {d : DupVerdict} (h : Offered id s t d) :
    ∃ es, Raised es s t ∧ (es = [] ∨ PushEvents es) := by
  cases h with
  | dropped => exact ⟨[], raised_nil rfl, .inl rfl⟩
  | passed fresh push =>
    obtain ⟨es, raised, events⟩ := push.raised
    exact ⟨es, raised, .inr events⟩

/-- No operation has to raise an event. -/
theorem eventsAllowed_nil (i : Instr) : EventsAllowed i [] := by
  cases i with
  | pollAbandon | pollComplete | dupFilter | qPush | schedPoll => exact .inl rfl
  | edgeD0 | edgeD1 | decode | qPop | tick | reset => rfl

theorem Effect.raised {s t : State} {i : Instr} (h : Effect s i t) : ∃ es, Raised es s t ∧ EventsAllowed i es := by
  cases h with
  | abandoned => exact ⟨_, raised_raise .captureError none (clearFrame s), .inr rfl⟩
  | schedSent => exact ⟨[⟨.transmitSuccess, some _⟩], rfl, .inr ⟨_, rfl⟩⟩
  | completed full settled offer => exact offer.raised
  | filteredForward unit offer | filteredSuppress unit offer => exact offer.raised
  | pushedSuccess unit push | pushedFail unit push =>
    obtain ⟨es, raised, events⟩ := push.raised
    exact ⟨es, raised, .inr events⟩
  | edgeRejected | edgeIgnored | edgeAppended | abandonIdle | completeIdle | unitRefused | decoded | popEmpty | popEntry
  | schedIdle | schedEmpty | ticked | reset => exact ⟨[], raised_nil rfl, eventsAllowed_nil _⟩

/-- What goes out with the events of an operation is the messages of the transmissions among them. -/
theorem Effect.out_eq {s t : State} {i : Instr} {es : List Event} (h : Effect s i t) (raised : Raised es s t) :
    t.out = s.out ++ (transmittedIds es).map fun r => ⟨r, message r⟩ := by
  have reports : transmittedIds t.ev = transmittedIds s.ev ++ transmittedIds es := by
    rw [show t.ev = _ from raised, transmittedIds_append]
  obtain ⟨out, none⟩ | ⟨-, r, out, one⟩ := h.silent_or_sent
  · have nothing : transmittedIds es = [] := List.self_eq_append_right.mp (none.symm.trans reports)
    simp [out, nothing]
  · have single : transmittedIds es = [r] := List.append_cancel_left (reports.symm.trans one)
    simp [out, single]

/-- Settles O49: the events of the operation's effect, and the messages that go out with them. -/
theorem eventsOfEachOperation : Obligations.EventsOfEachOperation := by
  intro s t i h
  have effect := exec_effect h
  obtain ⟨es, raised, allowed⟩ := effect.raised
  exact ⟨es, raised, allowed, effect.out_eq raised⟩

end Sys2Proof.Machine
end

section
/-! PROOF. A running block always has a step (60_exceptions.md R210): it waits with no word pending, marks a word that
decodes to no operation, and runs any other; RESET among them under the configuration it samples
(70_reset_and_hazards.md R240). -/

namespace Sys2Proof.Machine

/-- Settles O7: nothing stops the step, and there is no word to take. -/
theorem noPendingWordWaits : Obligations.NoPendingWordWaits := by
  intro s hs live legal
  simp only [step, fetchWord, hs, (stopInForce_none_iff s).mpr ⟨live, legal⟩]

/-- Settles O54, by the word pending: with none the block waits, an INVALID one is marked, any other is run by
`Invariant.exec_total`. -/
theorem noConditionStopsTheBlock : Obligations.NoConditionStopsTheBlock := by
  intro s inv
  cases hs : s.stim with
  | nil => exact ⟨s, noPendingWordWaits s hs inv.live inv.legal⟩
  | cons w rest =>
    cases hd : decodeOp w with
    | error e => exact ⟨_, step_of_error hs hd ((stopInForce_none_iff _).mpr ⟨inv.live, inv.legal⟩)⟩
    | ok i =>
      rw [stepRunsTheDecodedOperation s w rest i hs hd (fun _ => ⟨inv.live, inv.legal⟩) fun _ => inv.legalAtRelease]
      exact (inv.withStim rest).exec_total i

theorem sampleCfg_of_to_come {s : State} {c : Cfg} {cs : List Cfg} (toCome : s.cfgNext = c :: cs) :
    sampleCfg s = { s with cfg := c, cfgNext := cs } := by
  simp [sampleCfg, cfgAtRelease, toCome]

/-- Settles O43: RESET writes its values into the sampled state, in which `cfg` is the configuration that the inputs
hold. -/
theorem resetSamplesTheConfiguration : Obligations.ResetSamplesTheConfiguration := by
  intro s c cs toCome
  refine ⟨resetBlock { s with cfg := c, cfgNext := cs }, ?sampled, rfl, rfl, rfl⟩
  rw [exec_reset_eq, sampleCfg_of_to_come toCome]

end Sys2Proof.Machine
end

section
/-! PROOF. Bounded liveness (70_reset_and_hazards.md R250). A list with a poll in every interval of P microseconds holds
one in the P microseconds after any time T that it reaches. So what is awaited from time T on, at that poll or before, has
happened by T + P; and what can happen before it is only that the wait goes on. -/

namespace Sys2Proof.Machine

/-! ### A poll that comes in time -/

theorem PolledEvery.elapsed_le {P : Nat} {op : Instr} {ops seg : List Instr} (polled : PolledEvery P op ops)
    (piece : seg <:+: ops) (free : op ∉ seg) : elapsed seg ≤ P :=
  Nat.not_lt.mp fun long => free (polled seg piece long)

theorem PolledEvery.of_infix {P : Nat} {op : Instr} {ops seg : List Instr} (polled : PolledEvery P op ops)
    (piece : seg <:+: ops) : PolledEvery P op seg :=
  fun part hpart => polled part (hpart.trans piece)

/-- The first poll at T or later comes by T + P: the poll before it, or the start, is less than T, and no more than P
passes between them. -/
theorem PolledEvery.exists_poll {P T : Nat} {op : Instr} {ops : List Instr} (polled : PolledEvery P op ops)
    (instant : microsOf op = 0) (long : T + P ≤ elapsed ops) (lasts : P < elapsed ops) :
    ∃ pre post, ops = pre ++ op :: post ∧ T ≤ elapsed pre ∧ elapsed pre ≤ T + P := by
  obtain ⟨pre, post, rfl, free⟩ := List.eq_append_cons_of_mem (polled ops List.infix_rfl lasts)
  have first : elapsed pre ≤ P := polled.elapsed_le (List.prefix_append ..).isInfix free
  by_cases late : T ≤ elapsed pre
  · exact ⟨pre, post, rfl, late, by omega⟩
  · simp only [elapsed_append, elapsed_cons, instant] at long lasts
    have rest : PolledEvery P op post := polled.of_infix ⟨pre ++ [op], [], by simp⟩
    obtain ⟨pre', post', rfl, late', inTime⟩ :=
      rest.exists_poll (T := T - elapsed pre) instant (by omega) (by omega)
    refine ⟨pre ++ op :: pre', post', by simp, ?_, ?_⟩
    all_goals simp only [elapsed_append, elapsed_cons, instant]; omega
termination_by ops.length
decreasing_by subst_vars; simp; omega

/-! ### What is awaited comes in time -/

/-- From time T on the poll `op` brings about what is awaited, unless another operation has done so before; until then
every operation but RESET lets the wait go on by the time it takes. -/
structure Awaited (op : Instr) (T : Nat) (Waits : Nat → State → Prop) (Done : Instr → State → State → Prop) : Prop where
  waits_or_done : ∀ {n i s t}, Waits n s → i ≠ .reset → exec i s = .next t → Waits (n + microsOf i) t ∨ Done i s t
  due : ∀ {n s t}, Invariant s → Waits n s → T ≤ n → exec op s = .next t → Done op s t

/-- In a run of the list from s, the first operation that is not waiting does what is awaited, `limit` after the start at
most. -/
def ComesBy (limit : Nat) (Waits : Nat → State → Prop) (Done : Instr → State → State → Prop) (ops : List Instr)
    (s : State) : Prop :=
  ∃ pre i post u v, ops = pre ++ i :: post ∧ elapsed pre ≤ limit ∧ runOps pre s = .next u ∧ Invariant u
    ∧ Waits (elapsed pre) u ∧ exec i u = .next v ∧ Done i u v

section Awaited

variable {op : Instr} {T : Nat} {Waits : Nat → State → Prop} {Done : Instr → State → State → Prop}

theorem ComesBy.extend {m limit : Nat} {ops : List Instr} {s : State} (h : ComesBy m Waits Done ops s)
    (le : m ≤ limit) (more : List Instr) : ComesBy limit Waits Done (ops ++ more) s := by
  obtain ⟨pre, i, post, u, v, rfl, inTime, rest⟩ := h
  exact ⟨pre, i, post ++ more, u, v, by simp, inTime.trans le, rest⟩

/-- A run waits to its end, or what is awaited comes in it. -/
theorem Awaited.run {s : State} {ops : List Instr} (h : Awaited op T Waits Done) (inv : Invariant s)
    (start : Waits 0 s) (noReset : .reset ∉ ops) :
    (∃ u, runOps ops s = .next u ∧ Invariant u ∧ Waits (elapsed ops) u) ∨ ComesBy (elapsed ops) Waits Done ops s := by
  induction ops using List.reverseRecOn with
  | nil => exact .inl ⟨s, rfl, inv, start⟩
  | append_singleton ops i ih =>
    obtain ⟨noReset, hi⟩ := not_or.mp (mt List.mem_append.mpr noReset)
    rw [elapsed_append, elapsed_cons, elapsed_nil, Nat.add_zero]
    obtain ⟨u, run, invU, waits⟩ | came := ih noReset
    · obtain ⟨v, hexec⟩ := invU.exec_total i
      obtain more | done := h.waits_or_done waits (Ne.symm (mt List.mem_singleton.mpr hi)) hexec
      · have run : runOps (ops ++ [i]) s = .next v := by rw [runOps_append run, runOps_cons_next _ hexec, runOps_nil]
        exact .inl ⟨v, run, exec_keeps_invariant invU hexec, more⟩
      · exact .inr ⟨ops, i, [], u, v, rfl, Nat.le_add_right _ _, run, invU, waits, hexec, done⟩
    · exact .inr (came.extend (Nat.le_add_right _ _) [i])

/-- With a poll in every interval of P microseconds, what is awaited from time T on comes by T + P. -/
theorem Awaited.comesBy {P : Nat} {s : State} {ops : List Instr} (h : Awaited op T Waits Done) (inv : Invariant s)
    (start : Waits 0 s) (noReset : .reset ∉ ops) (polled : PolledEvery P op ops) (instant : microsOf op = 0)
    (long : T + P ≤ elapsed ops) (lasts : P < elapsed ops) : ComesBy (T + P) Waits Done ops s := by
  obtain ⟨pre, post, rfl, late, inTime⟩ := polled.exists_poll instant long lasts
  obtain ⟨noReset, -⟩ := not_or.mp (mt List.mem_append.mpr noReset)
  obtain ⟨u, run, invU, waits⟩ | came := h.run inv start noReset
  · obtain ⟨v, hexec⟩ := invU.exec_total op
    exact ⟨pre, op, post, u, v, rfl, inTime, run, invU, waits, hexec, h.due invU waits late hexec⟩
  · exact came.extend inTime _

end Awaited

/-! ### Ages that start at 0 -/

theorem le_satAdd_zero {limit : Age} {n : Nat} (passed : limit.toNat ≤ n) : limit ≤ satAdd 0 n := by
  have := limit.isLt
  rw [BitVec.le_def, satAdd_toNat, ageMax]
  omega

/-- A legal threshold is below `AGE_MAX`, so that a saturated age is beyond it (00_scope.md R10). -/
theorem lt_satAdd_zero {limit : Age} {n : Nat} (legal : limit.toNat ≤ 4294967294) (passed : limit.toNat + 1 ≤ n) :
    limit < satAdd 0 n := by
  rw [BitVec.lt_def, satAdd_toNat, ageMax]
  omega

/-! ### The frame as it ages -/

/-- The configuration and the frame are as before, its last bit n microseconds older. -/
structure FrameAges (n : Nat) (s t : State) : Prop where
  cfg : t.cfg = s.cfg
  count : t.fcnt = s.fcnt
  bits : t.fbit = s.fbit
  age : t.ageBit = satAdd s.ageBit n

theorem FrameAges.of_same {s t : State} (cfg : t.cfg = s.cfg) (count : t.fcnt = s.fcnt) (bits : t.fbit = s.fbit)
    (age : t.ageBit = s.ageBit) : FrameAges 0 s t :=
  ⟨cfg, count, bits, by rw [age, satAdd_zero]⟩

theorem FrameAges.trans {m n : Nat} {s t u : State} (first : FrameAges m s t) (second : FrameAges n t u) :
    FrameAges (m + n) s u :=
  ⟨second.cfg.trans first.cfg, second.count.trans first.count, second.bits.trans first.bits,
    by rw [second.age, first.age, satAdd_satAdd]⟩

theorem Pushed.frameAges {id : CardId} {s t : State} {r : PushResult} (h : Pushed id s t r) : FrameAges 0 s t := by
  cases h with
  | stored | replaced | rejected => exact .of_same rfl rfl rfl rfl

theorem Offered.frameAges {id : CardId} {s t : State} {d : DupVerdict} (h : Offered id s t d) : FrameAges 0 s t := by
  cases h with
  | dropped => exact .of_same rfl rfl rfl rfl
  | passed fresh push =>
    have noted : FrameAges 0 s (noteForward id s) := .of_same rfl rfl rfl rfl
    exact noted.trans push.frameAges

theorem frameAges_recordResult {n : Nat} {s t : State} (r : UnitResult) (h : FrameAges n s t) :
    FrameAges n s (recordResult r t) :=
  ⟨h.cfg, h.count, h.bits, h.age⟩

/-- Only `TICK` takes time, an operation of the environment (46_timebase_reset.md R200). -/
theorem microsOf_of_agent {i : Instr} (ha : i.agent ≠ .environment) : microsOf i = 0 := by
  cases i with
  | tick | reset => exact absurd rfl ha
  | _ => rfl

theorem EdgeOf.microsOf_eq {i : Instr} {b : Bool} (line : EdgeOf i b) : microsOf i = 0 :=
  microsOf_of_agent (by simp [line.agent_eq])

theorem microsOf_of_unitOnly {i : Instr} (only : i.unitOnly = true) : microsOf i = 0 :=
  microsOf_of_agent (by obtain ha | ha := agent_of_unitOnly only <;> simp [ha])

/-- An operation other than RESET lets the frame age by the time it takes, or it is an edge that appends a bit, a poll
that abandons a partial frame or one that completes a full one. -/
theorem Effect.frame_cases {s t : State} {i : Instr} (h : Effect s i t) (hi : i ≠ .reset) :
    FrameAges (microsOf i) s t
      ∨ ((i = .edgeD0 ∨ i = .edgeD1) ∧ s.fcnt < 26 ∧ t.fcnt.toNat = s.fcnt.toNat + 1)
      ∨ (i = .pollAbandon ∧ s.fcnt < 26 ∧ t.fcnt = 0 ∧ t.ev = s.ev ++ [⟨.captureError, none⟩])
      ∨ (i = .pollComplete ∧ s.fcnt = 26 ∧ t.fcnt = 0) := by
  cases h with
  | edgeAppended line yes room => exact .inr (.inl ⟨line.isEdge, room, afterEdge_fcnt (BitVec.lt_def.mp room)⟩)
  | abandoned begun few => exact .inr (.inr (.inl ⟨rfl, few, rfl, rfl⟩))
  | completed full settled offer => exact .inr (.inr (.inr ⟨rfl, full, offer.fcnt_eq⟩))
  | reset => exact absurd rfl hi
  | ticked n => exact .inl ⟨rfl, rfl, rfl, rfl⟩
  | edgeRejected line | edgeIgnored line =>
    rw [line.microsOf_eq]
    exact .inl (.of_same rfl rfl rfl rfl)
  | unitRefused block only =>
    rw [microsOf_of_unitOnly only]
    exact .inl (.of_same rfl rfl rfl rfl)
  | filteredForward unit offer | filteredSuppress unit offer => exact .inl (frameAges_recordResult _ offer.frameAges)
  | pushedSuccess unit push | pushedFail unit push => exact .inl (frameAges_recordResult _ push.frameAges)
  | abandonIdle | completeIdle | decoded | popEmpty | popEntry | schedIdle | schedEmpty | schedSent =>
    exact .inl (.of_same rfl rfl rfl rfl)

/-! ### A full frame is completed -/

/-- A settled full frame is consumed, whatever becomes of its identifier (41_frame_assembler.md R124). -/
theorem pollComplete_of_settled {s t : State} (inv : Invariant s) (full : s.fcnt = 26) (settled : s.cfg.gapUs < s.ageBit)
    (h : exec .pollComplete s = .next t) : t.fcnt = 0 := by
  obtain ⟨u, d, offered⟩ := inv.clearFrame.offer_total (decodeId (frameRaw s.fbit))
  simp only [exec, execPollComplete, (frameState_full_iff s).mpr full, BitVec.lt_def.mp settled, if_true, offered] at h
  cases h
  exact (offered_of_offer offered).fcnt_eq

/-- The operation is the poll that completes the frame. -/
def Completes (i : Instr) (_ t : State) : Prop := i = .pollComplete ∧ t.fcnt = 0

/-- A full frame of age 0 waits for its completion, which the first poll after the gap brings. -/
theorem completion_awaited {s : State} (inv : Invariant s) (full : s.fcnt = 26) (fresh : s.ageBit = 0) :
    Awaited .pollComplete (s.cfg.gapUs.toNat + 1) (fun n => FrameAges n s) Completes where
  waits_or_done := by
    intro n i u v waits hi h
    have fullU : u.fcnt = 26 := waits.count.trans full
    obtain ages | ⟨-, few, -⟩ | ⟨-, few, -⟩ | ⟨poll, -, emptied⟩ := (exec_effect h).frame_cases hi
    · exact .inl (waits.trans ages)
    · exact absurd few (by simp [fullU])
    · exact absurd few (by simp [fullU])
    · exact .inr ⟨poll, emptied⟩
  due := by
    intro n u v invU waits passed h
    obtain ⟨-, -, gap, -⟩ := (cfgLegal_iff_inRange _).mp inv.legal
    have settled : u.cfg.gapUs < u.ageBit := by
      rw [waits.cfg, waits.age, fresh]
      exact lt_satAdd_zero gap passed
    exact ⟨rfl, pollComplete_of_settled invU (waits.count.trans full) settled h⟩

/-- Settles O58, by `completion_awaited`. -/
theorem fullFrameCompletedInTime : Obligations.FullFrameCompletedInTime := by
  intro P s ops inv full fresh noReset polled long
  have start : FrameAges 0 s s := .of_same rfl rfl rfl rfl
  obtain ⟨pre, i, post, u, v, split, inTime, run, -, waits, hexec, rfl, emptied⟩ :=
    (completion_awaited inv full fresh).comesBy inv start noReset polled rfl long (by omega)
  exact ⟨pre, post, u, v, split, inTime, run, waits.count.trans full, waits.bits, hexec, emptied⟩

/-! ### A partial frame is abandoned or gets a further bit -/

/-- The operation is the poll that abandons the frame, or an edge that appends a bit. -/
def AbandonsOrAppends (i : Instr) (s t : State) : Prop :=
  (i = .pollAbandon ∧ t.fcnt = 0 ∧ t.ev = s.ev ++ [⟨.captureError, none⟩])
    ∨ ((i = .edgeD0 ∨ i = .edgeD1) ∧ t.fcnt.toNat = s.fcnt.toNat + 1)

/-- A partial frame of age 0 waits for a further bit, or for its abandonment, which the first poll after the timeout
brings. -/
theorem abandonment_awaited {s : State} (inv : Invariant s) (begun : 0 < s.fcnt) (few : s.fcnt < 26)
    (fresh : s.ageBit = 0) :
    Awaited .pollAbandon (s.cfg.partialTimeoutUs.toNat + 1) (fun n => FrameAges n s) AbandonsOrAppends where
  waits_or_done := by
    intro n i u v waits hi h
    obtain ages | ⟨edge, -, further⟩ | ⟨poll, -, dropped⟩ | ⟨-, full, -⟩ := (exec_effect h).frame_cases hi
    · exact .inl (waits.trans ages)
    · exact .inr (.inr ⟨edge, further⟩)
    · exact .inr (.inl ⟨poll, dropped⟩)
    · exact absurd few (by simp [waits.count.symm.trans full])
  due := by
    intro n u v invU waits passed h
    obtain ⟨-, timeout, -⟩ := (cfgLegal_iff_inRange _).mp inv.legal
    have stale : u.cfg.partialTimeoutUs < u.ageBit := by
      rw [waits.cfg, waits.age, fresh]
      exact lt_satAdd_zero timeout passed
    rw [← waits.count] at begun few
    rw [pollAbandon_drops begun few stale] at h
    cases h
    exact .inl ⟨rfl, rfl, rfl⟩

/-- Settles O59, by `abandonment_awaited`. -/
theorem partialFrameAbandonedInTime : Obligations.PartialFrameAbandonedInTime := by
  intro P s ops inv begun few fresh noReset polled long
  have start : FrameAges 0 s s := .of_same rfl rfl rfl rfl
  obtain ⟨pre, i, post, u, v, split, inTime, run, -, waits, hexec, done⟩ :=
    (abandonment_awaited inv begun few fresh).comesBy inv start noReset polled rfl long (by omega)
  rw [AbandonsOrAppends, waits.count] at done
  exact ⟨pre, i, post, u, v, split, inTime, run, waits.count, waits.bits, hexec, done⟩

/-! ### The next attempt -/

/-- The configuration is as before, and the last attempt n microseconds older. -/
structure CadenceAges (n : Nat) (s t : State) : Prop where
  cfg : t.cfg = s.cfg
  age : t.ageTx = satAdd s.ageTx n

/-- After an attempt the next one is awaited, which the first poll from the cadence on is. -/
theorem attempt_awaited {s : State} (fresh : s.ageTx = 0) :
    Awaited .schedPoll s.cfg.cadenceUs.toNat (fun n => CadenceAges n s) (fun i u _ => IsAttempt i u) where
  waits_or_done := by
    intro n i u v waits hi h
    by_cases attempt : IsAttempt i u
    · exact .inr attempt
    · obtain ⟨-, cfg, -⟩ := exec_keeps_config hi h
      exact .inl ⟨cfg.trans waits.cfg, by rw [exec_ages_tx hi attempt h, waits.age, satAdd_satAdd]⟩
  due := by
    intro n u v _ waits passed _
    refine ⟨rfl, ?_⟩
    rw [waits.cfg, waits.age, fresh]
    exact le_satAdd_zero passed

/-- An attempt takes the oldest entry, if there is one (45_scheduler.md R182). -/
theorem exec_attempt_content {i : Instr} {s t : State} (inv : Invariant s) (attempt : IsAttempt i s)
    (h : exec i s = .next t) : content t = (content s).drop 1 := by
  obtain ⟨rfl, due⟩ := attempt
  obtain ⟨early, -⟩ | ⟨-, vacant, rfl⟩ | ⟨-, held, -, rfl⟩ := exec_schedPoll_next h
  · exact absurd early (BitVec.not_lt.mpr due)
  · rw [content_empty vacant]
    exact content_empty vacant
  · rw [content_afterPop inv held]
    rfl

/-- Settles O60, by `attempt_awaited`. -/
theorem nextAttemptInTime : Obligations.NextAttemptInTime := by
  intro P s ops inv fresh noReset polled long lasts
  have start : CadenceAges 0 s s := ⟨rfl, (satAdd_zero _).symm⟩
  obtain ⟨pre, i, post, u, v, split, inTime, run, invU, waits, hexec, attempt⟩ :=
    (attempt_awaited fresh).comesBy inv start noReset polled rfl long lasts
  have ⟨poll, due⟩ := attempt
  subst poll
  rw [waits.cfg] at due
  exact ⟨pre, post, u, v, split, inTime, run, due, hexec, exec_attempt_ageTx attempt hexec,
    exec_attempt_content invU attempt hexec⟩

end Sys2Proof.Machine
end
